-- ==== Sys2Proof/Word.lean ====
section
/-!
DEFINITION. The widths of the core (spec/00_scope.md R9: XLEN = 64, NREG = 32, ILEN = 32).
-/
namespace Sys2Proof

/-- A register value, an address or a program counter: 64 bits (R11). -/
abbrev Word := BitVec 64

/-- One byte of memory (R36). -/
abbrev Byte := BitVec 8

/-- One instruction word (R55). -/
abbrev InstrWord := BitVec 32

/-- A general register's number, 0 to 31 (R17). -/
abbrev Reg := Fin 32

end Sys2Proof
end

