-- ==== Sys2Proof/Machine/Flags.lean ====
section
/-!
DEFINITION. The core has no flags and no condition codes: no instruction sets or reads one (spec/10_state.md R27). The
two comparisons its instructions make stand here in their place.
-/
namespace Sys2Proof.Machine

/-- BEQ's comparison: all 64 bits (42_branch.md R92). -/
def equal64 (a b : Word) : Bool := a == b

/-- SLTU's comparison: u(a) < u(b) (44_integer.md R103). -/
def lessUnsigned (a b : Word) : Bool := decide (a.toNat < b.toNat)

/-- The 64-bit result of a comparison: 1 or 0 (44_integer.md R103). -/
def boolWord (b : Bool) : Word := if b then 1#64 else 0#64

end Sys2Proof.Machine
end

