-- ==== Sys2Proof/Config.lean ====
section
/-!
DEFINITION. The implementation parameters of spec/00_scope.md R9. They are fixed for a machine and are no part of its
state. Every operation that depends on one takes a `Config`; the values this hardware takes are `Machine.reference`
(Machine/Reference.lean).
-/
namespace Sys2Proof

/-- DIVREM_OPCODE: the family whose major opcode holds DIVU and REMU (R66). -/
inductive DivremOpcode where
  /-- OP-32, the default. -/
  | op32
  /-- OP, the alternative. -/
  | op
deriving DecidableEq, Repr

/-- MISALIGNED_DATA: what an LD or SD with an address that is not a multiple of 8 does (R47). -/
inductive MisalignedData where
  /-- It raises AddressMisaligned: the default. -/
  | halt
  /-- It makes the access byte by byte: the alternative. -/
  | perform
deriving DecidableEq, Repr

/-- The parameters of R9, but for IMAGE, which `Machine.boot` takes as an argument. -/
structure Config where
  /-- MEM_BASE, B. -/
  memBase : Nat
  /-- MEM_SIZE, C. -/
  memSize : Nat
  /-- DIVREM_OPCODE. -/
  divremOpcode : DivremOpcode
  /-- DIVU_ZERO: the result of DIVU by zero, a function of the dividend (R104). -/
  divuZero : Word → Word
  /-- REMU_ZERO: the result of REMU by zero, a function of the dividend (R105). -/
  remuZero : Word → Word
  /-- MISALIGNED_DATA. -/
  misalignedData : MisalignedData
  /-- INIT_GPR: the reset value of x1 and x3 to x31 (R33); its values at 0 and 2 are not used. -/
  initGpr : Reg → Word

/-- The constraints a configuration must meet (R9, D18). -/
def Config.Valid (cfg : Config) : Prop :=
  cfg.memBase % 8 = 0 ∧ cfg.memSize % 8 = 0 ∧ 8 ≤ cfg.memSize ∧ cfg.memBase + cfg.memSize ≤ 2 ^ 64

end Sys2Proof
end

