-- ==== Sys2Proof/Machine/Reference.lean ====
section
/-!
DEFINITION. The parameter values this hardware takes (spec/00_scope.md R9, the column "value") and the values reset()
gives the registers (spec/10_state.md R33).
-/
namespace Sys2Proof.Machine

/-- The reset value the model names for each of x1 and x3 to x31. DESIGN CHOICE (log 3): INIT_GPR is OPEN in the spec.
Unsafe: a claim could rest on the zero. -/
def initGprValue (_ : Reg) : Word := 0

/-- DIVU_ZERO's default: all ones (R9, R104). DESIGN CHOICE of the spec (D7, log 6). Unsafe: the source gives no
result. -/
def divuZeroValue (_ : Word) : Word := 0xFFFF_FFFF_FFFF_FFFF#64

/-- REMU_ZERO's default: the dividend (R9, R105). DESIGN CHOICE of the spec (D7, log 6). Unsafe: the source gives no
result. -/
def remuZeroValue (dividend : Word) : Word := dividend

/-- The reference configuration of R9. DIVREM_OPCODE (log 4), MISALIGNED_DATA (log 5), the memory map (log 7) and the
zero-divisor results (log 6) are at the values R9 gives; INIT_GPR is the model's choice (log 3). -/
def reference : Config where
  memBase := 0x8000_0000
  memSize := 0x10_0000
  divremOpcode := .op32
  divuZero := divuZeroValue
  remuZero := remuZeroValue
  misalignedData := .halt
  initGpr := initGprValue

/-- The stack pointer's reset value, B + C (R33). -/
def resetSp (cfg : Config) : Word := BitVec.ofNat 64 (cfg.memBase + cfg.memSize)

/-- The program counter's reset value, B (R33). -/
def resetPc (cfg : Config) : Word := BitVec.ofNat 64 cfg.memBase

/-- Register r after reset() (R33, R131): x0 = 0, x2 = B + C, every other register INIT_GPR. -/
def resetReg (cfg : Config) (r : Reg) : Word :=
  if r = 0 then 0 else if r = 2 then resetSp cfg else cfg.initGpr r

/-- The register file after reset(). -/
def resetRegs (cfg : Config) : Vector Word 32 := Vector.ofFn (resetReg cfg)

end Sys2Proof.Machine
end

