-- ==== Sys2Proof/Syntax.lean ====
section
/-!
DEFINITION. The instructions: one constructor per row of spec/opcode_table.json. A constructor keeps every bit of its
word that its row does not fix, the bits the core ignores among them (30_encoding.md R71), so that an instruction and
its word determine each other.
-/
namespace Sys2Proof

/-- The instructions (00_scope.md R2, 30_encoding.md R67). Immediates are the encoded fields, with the implicit low
zero bit of the B and J forms written out; registers are numbers 0 to 31. -/
inductive Instr where
  /-- LUI: `imm` is bits[31:12] of the word (R61, R89). -/
  | lui (rd : Reg) (imm : BitVec 20)
  /-- JAL: `offset` is the 21-bit byte offset, bit 0 zero (R62, R90). -/
  | jal (rd : Reg) (offset : BitVec 21)
  /-- JALR: `funct3` is kept though the core ignores it (R71, R91). -/
  | jalr (rd rs1 : Reg) (imm : BitVec 12) (funct3 : BitVec 3)
  /-- BEQ: `offset` is the 13-bit byte offset, bit 0 zero (R60, R92). -/
  | beq (rs1 rs2 : Reg) (offset : BitVec 13)
  /-- LD (R95). -/
  | ld (rd rs1 : Reg) (imm : BitVec 12)
  /-- SD: rs1 is the base, rs2 the data (R96). -/
  | sd (rs1 rs2 : Reg) (imm : BitVec 12)
  /-- ADDI (R99). -/
  | addi (rd rs1 : Reg) (imm : BitVec 12)
  /-- ADD (R100). -/
  | add (rd rs1 rs2 : Reg)
  /-- SUB (R101). -/
  | sub (rd rs1 rs2 : Reg)
  /-- MUL (R102). -/
  | mul (rd rs1 rs2 : Reg)
  /-- SLTU (R103). -/
  | sltu (rd rs1 rs2 : Reg)
  /-- DIVU (R104). -/
  | divu (rd rs1 rs2 : Reg)
  /-- REMU (R105). -/
  | remu (rd rs1 rs2 : Reg)
  /-- ECALL: the word 0x0000_0073 (R106). -/
  | ecall
  /-- EBREAK: the word 0x0010_0073 (R106). -/
  | ebreak
  /-- Every other SYSTEM word with funct3 = 000; its fields are ignored (R71, R106). -/
  | systemNop (rd rs1 : Reg) (imm : BitVec 12)
deriving DecidableEq, Repr

/-- The row of spec/opcode_table.json an instruction belongs to. -/
def Instr.mnemonic : Instr → String
  | .lui .. => "LUI"
  | .jal .. => "JAL"
  | .jalr .. => "JALR"
  | .beq .. => "BEQ"
  | .ld .. => "LD"
  | .sd .. => "SD"
  | .addi .. => "ADDI"
  | .add .. => "ADD"
  | .sub .. => "SUB"
  | .mul .. => "MUL"
  | .sltu .. => "SLTU"
  | .divu .. => "DIVU"
  | .remu .. => "REMU"
  | .ecall => "ECALL"
  | .ebreak => "EBREAK"
  | .systemNop .. => "SYSTEM_NOP"

end Sys2Proof
end

