-- ==== Sys2Proof/WellFormed.lean ====
section
/-!
DEFINITION. Which terms of `Instr` are instructions of the core. Register numbers and field widths are bounded by their
types; what is left is the implicit zero bit of the B and J offsets and the two words that SYSTEM_NOP leaves to ECALL
and EBREAK.
-/
namespace Sys2Proof

/-- The implicit low zero bit of a B-type offset (R60). -/
def branchOffsetEven (offset : BitVec 13) : Bool := !offset.getLsbD 0

/-- The implicit low zero bit of a J-type offset (R62). -/
def jumpOffsetEven (offset : BitVec 21) : Bool := !offset.getLsbD 0

/-- The SYSTEM fields are not those of ECALL's or EBREAK's word (opcode_table.json, the notes of the three SYSTEM
rows). -/
def systemUnnamed (rd rs1 : Reg) (imm : BitVec 12) : Bool :=
  !(rd == 0 && rs1 == 0 && (imm == 0 || imm == 1))

/-- The well-formed instructions: those that some word decodes to. -/
def Instr.wf : Instr → Bool
  | .jal _ offset => jumpOffsetEven offset
  | .beq _ _ offset => branchOffsetEven offset
  | .systemNop rd rs1 imm => systemUnnamed rd rs1 imm
  | .lui .. => true
  | .jalr .. => true
  | .ld .. => true
  | .sd .. => true
  | .addi .. => true
  | .add .. => true
  | .sub .. => true
  | .mul .. => true
  | .sltu .. => true
  | .divu .. => true
  | .remu .. => true
  | .ecall => true
  | .ebreak => true

end Sys2Proof
end

