-- ==== Sys2Proof/Decode.lean ====
section
/-!
DEFINITION. The instruction_decoder of spec/30_encoding.md and, after it, an encoder written from the same tables. The
numeric opcode, funct3 and funct7 values are those R64 and R67 print (PRESUMED by the spec, D1; log 13).
-/
namespace Sys2Proof

/-! ## Fields (R56) -/

/-- opcode(w) = w[6:0]. -/
def opcodeOf (w : InstrWord) : BitVec 7 := w.extractLsb' 0 7
/-- rd(w) = w[11:7]. -/
def rdOf (w : InstrWord) : Reg := (w.extractLsb' 7 5).toFin
/-- funct3(w) = w[14:12]. -/
def funct3Of (w : InstrWord) : BitVec 3 := w.extractLsb' 12 3
/-- rs1(w) = w[19:15]. -/
def rs1Of (w : InstrWord) : Reg := (w.extractLsb' 15 5).toFin
/-- rs2(w) = w[24:20]. -/
def rs2Of (w : InstrWord) : Reg := (w.extractLsb' 20 5).toFin
/-- funct7(w) = w[31:25]. -/
def funct7Of (w : InstrWord) : BitVec 7 := w.extractLsb' 25 7

/-! ## Immediates: the assembled field, then its 64-bit value (R58 to R63) -/

/-- {w[31:20]} (R58). -/
def fieldI (w : InstrWord) : BitVec 12 := w.extractLsb' 20 12
/-- {w[31:25], w[11:7]} (R59). -/
def fieldS (w : InstrWord) : BitVec 12 := w.extractLsb' 25 7 ++ w.extractLsb' 7 5
/-- {w[31], w[7], w[30:25], w[11:8], 0} (R60). -/
def fieldB (w : InstrWord) : BitVec 13 :=
  w.extractLsb' 31 1 ++ w.extractLsb' 7 1 ++ w.extractLsb' 25 6 ++ w.extractLsb' 8 4 ++ 0#1
/-- {w[31:12]} (R61). -/
def fieldU (w : InstrWord) : BitVec 20 := w.extractLsb' 12 20
/-- {w[31], w[19:12], w[20], w[30:21], 0} (R62). -/
def fieldJ (w : InstrWord) : BitVec 21 :=
  w.extractLsb' 31 1 ++ w.extractLsb' 12 8 ++ w.extractLsb' 20 1 ++ w.extractLsb' 21 10 ++ 0#1

/-- The value of an I-type immediate: sext_12 (R58). -/
def immI (imm : BitVec 12) : Word := imm.signExtend 64
/-- The value of an S-type immediate: sext_12 (R59). -/
def immS (imm : BitVec 12) : Word := imm.signExtend 64
/-- The value of a B-type immediate: sext_13 (R60). -/
def immB (offset : BitVec 13) : Word := offset.signExtend 64
/-- The value of a U-type immediate: sext_32 of the field with twelve zero bits below it (R61). -/
def immU (imm : BitVec 20) : Word := (imm ++ 0#12 : BitVec 32).signExtend 64
/-- The value of a J-type immediate: sext_21 (R62). -/
def immJ (offset : BitVec 21) : Word := offset.signExtend 64

/-- imm_I(w) (R58). -/
def immIOf (w : InstrWord) : Word := immI (fieldI w)
/-- imm_S(w) (R59). -/
def immSOf (w : InstrWord) : Word := immS (fieldS w)
/-- imm_B(w) (R60). -/
def immBOf (w : InstrWord) : Word := immB (fieldB w)
/-- imm_U(w) (R61). -/
def immUOf (w : InstrWord) : Word := immU (fieldU w)
/-- imm_J(w) (R62). -/
def immJOf (w : InstrWord) : Word := immJ (fieldJ w)

/-! ## Major opcodes (R64) -/

/-- LOAD. -/
@[simp] abbrev opLoad : BitVec 7 := 0b0000011#7
/-- OP-IMM. -/
@[simp] abbrev opOpImm : BitVec 7 := 0b0010011#7
/-- STORE. -/
@[simp] abbrev opStore : BitVec 7 := 0b0100011#7
/-- OP. -/
@[simp] abbrev opOp : BitVec 7 := 0b0110011#7
/-- LUI. -/
@[simp] abbrev opLui : BitVec 7 := 0b0110111#7
/-- OP-32. -/
@[simp] abbrev opOp32 : BitVec 7 := 0b0111011#7
/-- BRANCH. -/
@[simp] abbrev opBranch : BitVec 7 := 0b1100011#7
/-- JALR. -/
@[simp] abbrev opJalr : BitVec 7 := 0b1100111#7
/-- JAL. -/
@[simp] abbrev opJal : BitVec 7 := 0b1101111#7
/-- SYSTEM. -/
@[simp] abbrev opSystem : BitVec 7 := 0b1110011#7

/-- The value of DIVREM_OPCODE (R66). -/
def divremOp : DivremOpcode → BitVec 7
  | .op32 => opOp32
  | .op => opOp

/-! ## Decode (R68) -/

/-- ECALL's word (opcode_table.json). -/
abbrev ecallWord : InstrWord := 0x00000073#32
/-- EBREAK's word (opcode_table.json). -/
abbrev ebreakWord : InstrWord := 0x00100073#32

/-- The SYSTEM funct3 = 000 words: the two the table names by their whole word, and the rest (log 9). -/
def decodeSystem (w : InstrWord) : Instr :=
  if w = ecallWord then .ecall
  else if w = ebreakWord then .ebreak
  else .systemNop (rdOf w) (rs1Of w) (fieldI w)

/-- The decode function of R68: total, `none` for Illegal. -/
def decodeWord (d : DivremOpcode) (w : InstrWord) : Option Instr :=
  let op := opcodeOf w
  let f3 := funct3Of w
  let f7 := funct7Of w
  if op = opLui then some (.lui (rdOf w) (fieldU w))
  else if op = opJal then some (.jal (rdOf w) (fieldJ w))
  else if op = opJalr then some (.jalr (rdOf w) (rs1Of w) (fieldI w) f3)
  else if op = opBranch ∧ f3 = 0b000#3 then some (.beq (rs1Of w) (rs2Of w) (fieldB w))
  else if op = opLoad ∧ f3 = 0b011#3 then some (.ld (rdOf w) (rs1Of w) (fieldI w))
  else if op = opStore ∧ f3 = 0b011#3 then some (.sd (rs1Of w) (rs2Of w) (fieldS w))
  else if op = opOpImm ∧ f3 = 0b000#3 then some (.addi (rdOf w) (rs1Of w) (fieldI w))
  else if op = opSystem ∧ f3 = 0b000#3 then some (decodeSystem w)
  else if op = opOp ∧ f3 = 0b000#3 ∧ f7 = 0b0000000#7 then some (.add (rdOf w) (rs1Of w) (rs2Of w))
  else if op = opOp ∧ f3 = 0b000#3 ∧ f7 = 0b0100000#7 then some (.sub (rdOf w) (rs1Of w) (rs2Of w))
  else if op = opOp ∧ f3 = 0b000#3 ∧ f7 = 0b0000001#7 then some (.mul (rdOf w) (rs1Of w) (rs2Of w))
  else if op = opOp ∧ f3 = 0b011#3 ∧ f7 = 0b0000000#7 then some (.sltu (rdOf w) (rs1Of w) (rs2Of w))
  else if op = divremOp d ∧ f3 = 0b101#3 ∧ f7 = 0b0000001#7 then some (.divu (rdOf w) (rs1Of w) (rs2Of w))
  else if op = divremOp d ∧ f3 = 0b111#3 ∧ f7 = 0b0000001#7 then some (.remu (rdOf w) (rs1Of w) (rs2Of w))
  else none

/-- Why the byte decoder answers no instruction. -/
inductive Rejection where
  /-- Fewer than four bytes are left: no instruction word (R55). -/
  | shortInput
  /-- The word is Illegal: the condition IllegalInstruction (R69). -/
  | illegalInstruction (word : InstrWord)
deriving DecidableEq, Repr

/-- The word four bytes hold, the first in bits 7:0 (R43, R130). -/
def wordOfBytes (b0 b1 b2 b3 : Byte) : InstrWord := b3 ++ b2 ++ b1 ++ b0

/-- The four bytes of a word, from the lowest address up (R130). -/
def bytesOfWord (w : InstrWord) : List Byte :=
  [w.extractLsb' 0 8, w.extractLsb' 8 8, w.extractLsb' 16 8, w.extractLsb' 24 8]

/-- Decode the instruction at the head of a list of bytes; total, and it answers the bytes that are left. -/
def decodeBytes (d : DivremOpcode) : List Byte → Except Rejection (Instr × List Byte)
  | b0 :: b1 :: b2 :: b3 :: rest =>
    match decodeWord d (wordOfBytes b0 b1 b2 b3) with
    | some i => .ok (i, rest)
    | none => .error (.illegalInstruction (wordOfBytes b0 b1 b2 b3))
  | _ => .error .shortInput

/-- The instruction word of a table row's bits: the bits from nbits up are 0. -/
def tableWord (nbits w : Nat) : InstrWord := BitVec.ofNat 32 (w % 2 ^ nbits)

/-- The instruction this core's decoder reads from a word numbered as spec/opcode_table.json numbers it. -/
def decodeTableWord (nbits w : Nat) : Option Instr :=
  match decodeBytes Machine.reference.divremOpcode (bytesOfWord (tableWord nbits w)) with
  | .ok (i, _) => some i
  | .error _ => none

/-! ## Encode: the formats of R57 and the values of R67 -/

/-- A register number as a 5-bit field (R17). -/
def regField (r : Reg) : BitVec 5 := BitVec.ofFin r

/-- R-type. -/
def encodeR (f7 : BitVec 7) (rs2 rs1 : Reg) (f3 : BitVec 3) (rd : Reg) (op : BitVec 7) : InstrWord :=
  f7 ++ regField rs2 ++ regField rs1 ++ f3 ++ regField rd ++ op
/-- I-type. -/
def encodeI (imm : BitVec 12) (rs1 : Reg) (f3 : BitVec 3) (rd : Reg) (op : BitVec 7) : InstrWord :=
  imm ++ regField rs1 ++ f3 ++ regField rd ++ op
/-- S-type. -/
def encodeS (imm : BitVec 12) (rs2 rs1 : Reg) (f3 : BitVec 3) (op : BitVec 7) : InstrWord :=
  imm.extractLsb' 5 7 ++ regField rs2 ++ regField rs1 ++ f3 ++ imm.extractLsb' 0 5 ++ op
/-- B-type. -/
def encodeB (offset : BitVec 13) (rs2 rs1 : Reg) (f3 : BitVec 3) (op : BitVec 7) : InstrWord :=
  offset.extractLsb' 12 1 ++ offset.extractLsb' 5 6 ++ regField rs2 ++ regField rs1 ++ f3 ++
    offset.extractLsb' 1 4 ++ offset.extractLsb' 11 1 ++ op
/-- U-type. -/
def encodeU (imm : BitVec 20) (rd : Reg) (op : BitVec 7) : InstrWord := imm ++ regField rd ++ op
/-- J-type. -/
def encodeJ (offset : BitVec 21) (rd : Reg) (op : BitVec 7) : InstrWord :=
  offset.extractLsb' 20 1 ++ offset.extractLsb' 1 10 ++ offset.extractLsb' 11 1 ++ offset.extractLsb' 12 8 ++
    regField rd ++ op

/-- The word of an instruction under a value of DIVREM_OPCODE. -/
def encodeWith (d : DivremOpcode) : Instr → InstrWord
  | .lui rd imm => encodeU imm rd opLui
  | .jal rd offset => encodeJ offset rd opJal
  | .jalr rd rs1 imm funct3 => encodeI imm rs1 funct3 rd opJalr
  | .beq rs1 rs2 offset => encodeB offset rs2 rs1 0b000#3 opBranch
  | .ld rd rs1 imm => encodeI imm rs1 0b011#3 rd opLoad
  | .sd rs1 rs2 imm => encodeS imm rs2 rs1 0b011#3 opStore
  | .addi rd rs1 imm => encodeI imm rs1 0b000#3 rd opOpImm
  | .add rd rs1 rs2 => encodeR 0b0000000#7 rs2 rs1 0b000#3 rd opOp
  | .sub rd rs1 rs2 => encodeR 0b0100000#7 rs2 rs1 0b000#3 rd opOp
  | .mul rd rs1 rs2 => encodeR 0b0000001#7 rs2 rs1 0b000#3 rd opOp
  | .sltu rd rs1 rs2 => encodeR 0b0000000#7 rs2 rs1 0b011#3 rd opOp
  | .divu rd rs1 rs2 => encodeR 0b0000001#7 rs2 rs1 0b101#3 rd (divremOp d)
  | .remu rd rs1 rs2 => encodeR 0b0000001#7 rs2 rs1 0b111#3 rd (divremOp d)
  | .ecall => ecallWord
  | .ebreak => ebreakWord
  | .systemNop rd rs1 imm => encodeI imm rs1 0b000#3 rd opSystem

/-- The word of an instruction on this hardware. -/
def encode (i : Instr) : InstrWord := encodeWith Machine.reference.divremOpcode i

/-- The major opcode of an instruction's family (R64). -/
def majorOpcode (d : DivremOpcode) : Instr → BitVec 7
  | .lui .. => opLui
  | .jal .. => opJal
  | .jalr .. => opJalr
  | .beq .. => opBranch
  | .ld .. => opLoad
  | .sd .. => opStore
  | .addi .. => opOpImm
  | .add .. => opOp
  | .sub .. => opOp
  | .mul .. => opOp
  | .sltu .. => opOp
  | .divu .. => divremOp d
  | .remu .. => divremOp d
  | .ecall => opSystem
  | .ebreak => opSystem
  | .systemNop .. => opSystem

/-! ## The opcode map as a table (R67, opcode_table.json) -/

/-- One row of opcode_table.json: its mnemonic and the fields (hi, lo, value) it fixes. -/
structure OpcodeRow where
  mnemonic : String
  fixed : List (Nat × Nat × Nat)
deriving DecidableEq, Repr

/-- A word has the row's fixed fields. -/
def OpcodeRow.admits (row : OpcodeRow) (w : InstrWord) : Bool :=
  row.fixed.all fun (hi, lo, v) => (w.extractLsb' lo (hi - lo + 1)).toNat == v

/-- The rows of opcode_table.json in its order, DIVU's and REMU's under DIVREM_OPCODE as their notes say. -/
def opcodeMap (d : DivremOpcode) : List OpcodeRow := [
  ⟨"LUI", [(6, 0, 55)]⟩,
  ⟨"JAL", [(6, 0, 111)]⟩,
  ⟨"JALR", [(6, 0, 103)]⟩,
  ⟨"BEQ", [(6, 0, 99), (14, 12, 0)]⟩,
  ⟨"LD", [(6, 0, 3), (14, 12, 3)]⟩,
  ⟨"SD", [(6, 0, 35), (14, 12, 3)]⟩,
  ⟨"ADDI", [(6, 0, 19), (14, 12, 0)]⟩,
  ⟨"ADD", [(6, 0, 51), (14, 12, 0), (31, 25, 0)]⟩,
  ⟨"SUB", [(6, 0, 51), (14, 12, 0), (31, 25, 32)]⟩,
  ⟨"MUL", [(6, 0, 51), (14, 12, 0), (31, 25, 1)]⟩,
  ⟨"SLTU", [(6, 0, 51), (14, 12, 3), (31, 25, 0)]⟩,
  ⟨"DIVU", [(6, 0, (divremOp d).toNat), (14, 12, 5), (31, 25, 1)]⟩,
  ⟨"REMU", [(6, 0, (divremOp d).toNat), (14, 12, 7), (31, 25, 1)]⟩,
  ⟨"ECALL", [(31, 0, 115)]⟩,
  ⟨"EBREAK", [(31, 0, 1048691)]⟩,
  ⟨"SYSTEM_NOP", [(6, 0, 115), (14, 12, 0)]⟩]

end Sys2Proof
end

