-- ==== Sys2Proof/Machine/State.lean ====
section
/-!
DEFINITION. The architectural state of spec/10_state.md section 1, the halt record of spec/60_exceptions.md R117, the
outcomes' reason types, and the state after reset.
-/
namespace Sys2Proof.Machine

/-- The conditions (R110). -/
inductive Condition where
  /-- Code 1: a word outside the opcode map (R111). -/
  | illegalInstruction
  /-- Code 2: a misaligned control-flow target or memory access (R112). -/
  | addressMisaligned
  /-- Code 3: an access outside [B, B + C) (R113). -/
  | outOfBounds
  /-- Code 4: a bus access of a size outside 8, 16, 32, 64; never from a program (R114). -/
  | invalidAccessSize
deriving DecidableEq, Repr

/-- What raised a condition: the record's kind (R117). -/
inductive HaltKind where
  | fetch
  | decode
  | jump
  | branch
  | load
  | store
deriving DecidableEq, Repr

/-- The halt record (R32, R117). A field that the condition does not have is `none`. -/
structure HaltRecord where
  /-- The condition, whose code R110 gives. -/
  condition : Condition
  /-- fetch, decode, jump, branch, load or store. -/
  kind : HaltKind
  /-- pc_this, the address of the instruction that halted. -/
  pc : Word
  /-- The instruction word; for all but fetch conditions. -/
  word : Option InstrWord
  /-- The misaligned target or data address, or pc_this for a fetch; for AddressMisaligned and OutOfBounds. -/
  addr : Option Word
  /-- The access size in bits; for OutOfBounds, InvalidAccessSize, and AddressMisaligned of a load or store. -/
  size : Option (BitVec 8)
deriving DecidableEq, Repr

/-- The two run states (R31). -/
inductive RunState where
  | running
  | halted
deriving DecidableEq, Repr

/-- The memory region's bytes that differ from what an unlisted address reads as (`unlistedByte`, 0 by R36), by absolute
address (log 11), in one canonical form (`Memory.wf`). -/
abbrev Memory := List Host.Cell

/-- The whole architectural state (10_state.md section 1). The core has no other (R27 to R30). -/
structure State where
  /-- x0 to x31 (R17). -/
  regs : Vector Word 32
  /-- The address of the next instruction to fetch (R23). -/
  pc : Word
  /-- RUNNING or HALTED (R31). -/
  run : RunState
  /-- The halt record, present while HALTED (R32). -/
  haltRecord : Option HaltRecord
  /-- The memory region (R36). -/
  mem : Memory
deriving DecidableEq, Repr

/-- The reasons a step could stop without a next state. There is none: the spec gives the machine a next state in every
case, since each condition is the HALTED state with its record (R115; log 2). No step raises one, which is safe. -/
inductive Fault where
deriving DecidableEq, Repr

/-- The reasons a step could be refused. -/
inductive Refusal where
  /-- Raised by an arm of `exec` for an instruction that has no meaning yet; no arm does so, which is safe. -/
  | notModelled (mnemonic : String)
deriving DecidableEq, Repr

/-- What an instruction or a step answers. -/
abbrev Result := Host.Outcome State Fault Refusal

/-- The state reset() leaves over a memory it does not write (R33, R131). -/
def State.resetOf (cfg : Config) (mem : Memory) : State where
  regs := resetRegs cfg
  pc := resetPc cfg
  run := .running
  haltRecord := none
  mem := mem

/-- The machine right after power-on (memory all zero, R129) and reset() (R131), with nothing loaded. -/
def State.reset : State := State.resetOf reference []

end Sys2Proof.Machine
end

