-- ==== Sys2Proof/Machine/Ops.lean ====
section
/-!
DEFINITION. The named operations over registers, the program counter, memory and the bus, and the one operation that
raises a condition.
-/
namespace Sys2Proof.Machine

/-! ## register_file (10_state.md R18) -/

/-- read_reg: x0 reads 0. -/
def State.readReg (s : State) (r : Reg) : Word := if r = 0 then 0 else s.regs[r]

/-- write_reg: a write of x0 is discarded. -/
def State.writeReg (s : State) (r : Reg) (v : Word) : State :=
  if r = 0 then s else { s with regs := s.regs.set r v }

/-- Stage 1 of the step: X[0] <- 0 (40_fetch_execute.md R78). -/
def State.zeroX0 (s : State) : State := { s with regs := s.regs.set 0 0 }

/-! ## program_counter_management (10_state.md R23 to R26) -/

/-- Stage 3 of the step: pc <- pc_this + 4, modulo 2^64 (40_fetch_execute.md R80). -/
def State.advancePc (s : State) : State := { s with pc := s.pc + 4#64 }

/-- pc <- target. -/
def State.setPc (s : State) (target : Word) : State := { s with pc := target }

/-! ## The memory region (20_memory.md R36) -/

/-- What an unlisted address reads as: memory is zero at power-on (R36, R129). -/
def unlistedByte : Byte := 0

/-- The canonical form: addresses strictly rising, and no entry equal to what an unlisted address reads as. -/
abbrev Memory.wf (m : Memory) : Prop :=
  m.Pairwise (fun c d => c.1 < d.1) ∧ ∀ c ∈ m, c.2 ≠ unlistedByte

/-- Every listed address lies in the region [B, B + C) (R37). -/
abbrev Memory.inRegion (cfg : Config) (m : Memory) : Prop :=
  ∀ c ∈ m, cfg.memBase ≤ c.1 ∧ c.1 < cfg.memBase + cfg.memSize

/-- The byte at an address. -/
def Memory.readByte : Memory → Nat → Byte
  | [], _ => unlistedByte
  | (a, b) :: rest, x => if a = x then b else Memory.readByte rest x

/-- Unlist an address. -/
def Memory.erase : Memory → Nat → Memory
  | [], _ => []
  | (a, b) :: rest, x => if a = x then Memory.erase rest x else (a, b) :: Memory.erase rest x

/-- List a byte at its place in the order. -/
def Memory.insert : Memory → Nat → Byte → Memory
  | [], x, v => [(x, v)]
  | (a, b) :: rest, x, v => if x < a then (x, v) :: (a, b) :: rest else (a, b) :: Memory.insert rest x v

/-- Write one byte, keeping the canonical form. -/
def Memory.writeByte (m : Memory) (x : Nat) (v : Byte) : Memory :=
  if v = unlistedByte then m.erase x else (m.erase x).insert x v

/-- n bytes from a, little-endian, zero-extended to 64 bits (R41). -/
def Memory.readLE (m : Memory) (a : Nat) : Nat → Word
  | 0 => 0#64
  | n + 1 => m.readLE a n ||| ((m.readByte (a + n)).setWidth 64 <<< (8 * n))

/-- Byte k of a value, bits 8k+7 to 8k (R42). -/
def byteOf (v : Word) (k : Nat) : Byte := v.extractLsb' (8 * k) 8

/-- The low n bytes of v from a, little-endian (R42). -/
def Memory.writeLE (m : Memory) (a : Nat) (v : Word) : Nat → Memory
  | 0 => m
  | n + 1 => (m.writeLE a v n).writeByte (a + n) (byteOf v n)

/-- A list of bytes from a up (the loader's writes, 70_reset_and_hazards.md R129). -/
def Memory.writeBytes (m : Memory) (a : Nat) : List Byte → Memory
  | [] => m
  | b :: rest => Memory.writeBytes (m.writeByte a b) (a + 1) rest

/-! ## memory_bus_interface (20_memory.md R38 to R42) -/

/-- The sizes, in bits, that the bus accepts (R39). -/
abbrev validSize (size : BitVec 8) : Prop := size = 8#8 ∨ size = 16#8 ∨ size = 32#8 ∨ size = 64#8

/-- in_bounds(addr, n), on unbounded integers (R40). -/
abbrev InBounds (cfg : Config) (addr : Word) (n : Nat) : Prop :=
  cfg.memBase ≤ addr.toNat ∧ addr.toNat + n ≤ cfg.memBase + cfg.memSize

/-- Bus.load of a size in bits: the size check, the bounds check, then the read (R41). It changes nothing. -/
def memRead (cfg : Config) (m : Memory) (addr : Word) (size : BitVec 8) : Except Condition Word :=
  if ¬ validSize size then .error .invalidAccessSize
  else if ¬ InBounds cfg addr (size.toNat / 8) then .error .outOfBounds
  else .ok (m.readLE addr.toNat (size.toNat / 8))

/-- Bus.store of a size in bits: the same checks before any byte is written (R42). -/
def memWrite (cfg : Config) (m : Memory) (addr : Word) (size : BitVec 8) (v : Word) : Except Condition Memory :=
  if ¬ validSize size then .error .invalidAccessSize
  else if ¬ InBounds cfg addr (size.toNat / 8) then .error .outOfBounds
  else .ok (m.writeLE addr.toNat v (size.toNat / 8))

/-- The doubleword alignment check of LD and SD (R47; 43_load_store.md R94). -/
abbrev MisalignedHalt (cfg : Config) (addr : Word) : Prop :=
  cfg.misalignedData = .halt ∧ addr.toNat % 8 ≠ 0

/-- LD's access: alignment, then the bus (43_load_store.md R94, R95). -/
def dataRead (cfg : Config) (m : Memory) (addr : Word) : Except Condition Word :=
  if MisalignedHalt cfg addr then .error .addressMisaligned else memRead cfg m addr 64#8

/-- SD's access: alignment, then the bus (43_load_store.md R94, R96). -/
def dataWrite (cfg : Config) (m : Memory) (addr v : Word) : Except Condition Memory :=
  if MisalignedHalt cfg addr then .error .addressMisaligned else memWrite cfg m addr 64#8 v

/-! ## Conditions (60_exceptions.md R110 to R117) -/

/-- The condition's code (R110). -/
def Condition.code : Condition → Nat
  | .illegalInstruction => 1
  | .addressMisaligned => 2
  | .outOfBounds => 3
  | .invalidAccessSize => 4

/-- The record of an IllegalInstruction (R111). -/
def illegalRecord (pcThis : Word) (word : InstrWord) : HaltRecord where
  condition := .illegalInstruction
  kind := .decode
  pc := pcThis
  word := some word
  addr := none
  size := none

/-- The record of a misaligned control-flow target (R112). -/
def targetRecord (kind : HaltKind) (pcThis : Word) (word : InstrWord) (target : Word) : HaltRecord where
  condition := .addressMisaligned
  kind := kind
  pc := pcThis
  word := some word
  addr := some target
  size := none

/-- The record of a data access's condition (R112, R113, R114): InvalidAccessSize has no address. -/
def dataRecord (c : Condition) (kind : HaltKind) (pcThis : Word) (word : InstrWord) (addr : Word)
    (size : BitVec 8) : HaltRecord where
  condition := c
  kind := kind
  pc := pcThis
  word := some word
  addr := if c = .invalidAccessSize then none else some addr
  size := some size

/-- The record of a fetch's condition (R79, R117): no word; the size is 32 but for a misaligned pc. -/
def fetchRecord (c : Condition) (pcThis : Word) : HaltRecord where
  condition := c
  kind := .fetch
  pc := pcThis
  word := none
  addr := if c = .invalidAccessSize then none else some pcThis
  size := if c = .addressMisaligned then none else some 32#8

/-- Which fields a record has (the table of R117), and which kinds a condition has (R111 to R113). -/
abbrev HaltRecord.wf (r : HaltRecord) : Prop :=
  (r.word.isSome ↔ r.kind ≠ .fetch) ∧
  (r.addr.isSome ↔ r.condition = .addressMisaligned ∨ r.condition = .outOfBounds) ∧
  (r.size.isSome ↔ r.condition = .outOfBounds ∨ r.condition = .invalidAccessSize ∨
    (r.condition = .addressMisaligned ∧ (r.kind = .load ∨ r.kind = .store))) ∧
  (r.condition = .illegalInstruction ↔ r.kind = .decode) ∧
  (r.kind = .jump ∨ r.kind = .branch → r.condition = .addressMisaligned)

/-- Raise a condition: HALTED, with the record; no register, no memory and no pc is written (R115, R116). This is the
core's only "exception entry": it has no trap (R119). -/
def State.raise (s : State) (r : HaltRecord) : State := { s with run := .halted, haltRecord := some r }

/-- reset(): registers, pc, run state and record; memory is not written. It is the only way out of HALTED, the core
having no trap return (70_reset_and_hazards.md R131; 60_exceptions.md R120). -/
def State.resetMachine (cfg : Config) (s : State) : State := State.resetOf cfg s.mem

/-- What step() returns (40_fetch_execute.md R76). -/
inductive StepResult where
  /-- Code 0 of R110. -/
  | continue_
  /-- The stored record. -/
  | halt (r : HaltRecord)
deriving DecidableEq, Repr

/-- The value step() returns, read from the state it leaves (R76, R77, R115). -/
def State.result (s : State) : StepResult :=
  match s.run, s.haltRecord with
  | .halted, some r => .halt r
  | _, _ => .continue_

/-- The code of a step's value (R110). -/
def StepResult.code : StepResult → Nat
  | .continue_ => 0
  | .halt r => r.condition.code

/-! ## fetch_unit (40_fetch_execute.md R79) -/

/-- Stage 2: the alignment check, then a 32-bit bus load at pc. -/
def fetch (cfg : Config) (s : State) : Except HaltRecord InstrWord :=
  if s.pc.toNat % 4 ≠ 0 then .error (fetchRecord .addressMisaligned s.pc)
  else match memRead cfg s.mem s.pc 32#8 with
    | .ok v => .ok (v.extractLsb' 0 32)
    | .error c => .error (fetchRecord c s.pc)

/-- An instruction word stored where the next step fetches; nothing where no fetch could reach it. -/
def State.storeAtPc (cfg : Config) (s : State) (w : InstrWord) : State :=
  if InBounds cfg s.pc 4 then { s with mem := s.mem.writeLE s.pc.toNat (w.setWidth 64) 4 } else s

/-! ## Power-on and loading (70_reset_and_hazards.md R129, R130) -/

/-- The external loader's contract: the image at B + offset, refused where it does not fit in [B, B + C). -/
def Memory.loadImage (cfg : Config) (m : Memory) (image : List Byte) (offset : Nat) : Option Memory :=
  if offset + image.length ≤ cfg.memSize then some (m.writeBytes (cfg.memBase + offset) image) else none

/-- Power-on (all bytes zero), then the loader at offset 0, then reset(). -/
def boot (cfg : Config) (image : List Byte) : Option State :=
  (Memory.loadImage cfg [] image 0).map (State.resetOf cfg)

end Sys2Proof.Machine
end

