-- ==== Sys2Proof/Machine/Operands.lean ====
section
/-!
DEFINITION. The operand forms: registers are read by `State.readReg` and immediates valued by `immI` … `immJ`
(Decode.lean); what is left is the core's one addressing mode and its three control-flow targets.
-/
namespace Sys2Proof.Machine

/-- LD's effective address: x[rs1] + imm_I modulo 2^64; the base is not modified (43_load_store.md R93). -/
def loadAddress (s : State) (rs1 : Reg) (imm : BitVec 12) : Word := s.readReg rs1 + immI imm

/-- SD's effective address: x[rs1] + imm_S modulo 2^64 (43_load_store.md R93). -/
def storeAddress (s : State) (rs1 : Reg) (imm : BitVec 12) : Word := s.readReg rs1 + immS imm

/-- JAL's target: pc_this + imm_J modulo 2^64 (41_upper_and_jumps.md R90). -/
def jalTarget (pcThis : Word) (offset : BitVec 21) : Word := pcThis + immJ offset

/-- JALR's target: (x[rs1] + imm_I) & ~1 (41_upper_and_jumps.md R91). -/
def jalrTarget (s : State) (rs1 : Reg) (imm : BitVec 12) : Word :=
  (s.readReg rs1 + immI imm) &&& ~~~1#64

/-- BEQ's target: pc_this + imm_B modulo 2^64 (42_branch.md R92). -/
def beqTarget (pcThis : Word) (offset : BitVec 13) : Word := pcThis + immB offset

/-- The alignment a control-flow target must have: target[1:0] = 0b00 (60_exceptions.md R112). -/
abbrev TargetAligned (target : Word) : Prop := target.extractLsb' 0 2 = 0b00#2

/-- The return address: that of the instruction after this one (40_fetch_execute.md R80; 41_upper_and_jumps.md R90). -/
def returnAddress (pcThis : Word) : Word := pcThis + 4#64

/-- The register an instruction writes (the table of 10_state.md R19). -/
def destination : Instr → Option Reg
  | .lui rd _ => some rd
  | .jal rd _ => some rd
  | .jalr rd _ _ _ => some rd
  | .beq _ _ _ => none
  | .ld rd _ _ => some rd
  | .sd _ _ _ => none
  | .addi rd _ _ => some rd
  | .add rd _ _ => some rd
  | .sub rd _ _ => some rd
  | .mul rd _ _ => some rd
  | .sltu rd _ _ => some rd
  | .divu rd _ _ => some rd
  | .remu rd _ _ => some rd
  | .ecall => none
  | .ebreak => none
  | .systemNop _ _ _ => none

/-- The registers an instruction reads (the table of 10_state.md R19). -/
def sources : Instr → List Reg
  | .lui _ _ => []
  | .jal _ _ => []
  | .jalr _ rs1 _ _ => [rs1]
  | .beq rs1 rs2 _ => [rs1, rs2]
  | .ld _ rs1 _ => [rs1]
  | .sd rs1 rs2 _ => [rs1, rs2]
  | .addi _ rs1 _ => [rs1]
  | .add _ rs1 rs2 => [rs1, rs2]
  | .sub _ rs1 rs2 => [rs1, rs2]
  | .mul _ rs1 rs2 => [rs1, rs2]
  | .sltu _ rs1 rs2 => [rs1, rs2]
  | .divu _ rs1 rs2 => [rs1, rs2]
  | .remu _ rs1 rs2 => [rs1, rs2]
  | .ecall => []
  | .ebreak => []
  | .systemNop _ _ _ => []

end Sys2Proof.Machine
end

