-- ==== Sys2Proof/Machine/Branch.lean ====
section
/-!
DEFINITION. BEQ (spec/42_branch.md).
-/
namespace Sys2Proof.Machine

/-- BEQ (R92): the target is checked only when the branch is taken. -/
def execBeq (rs1 rs2 : Reg) (offset : BitVec 13) (s : State) : Result :=
  if equal64 (s.readReg rs1) (s.readReg rs2) then
    if TargetAligned (beqTarget s.pc offset) then .next (s.setPc (beqTarget s.pc offset))
    else .next (s.advancePc.raise
      (targetRecord .branch s.pc (encode (.beq rs1 rs2 offset)) (beqTarget s.pc offset)))
  else .next s.advancePc

end Sys2Proof.Machine
end

