-- ==== Sys2Proof/Machine/Integer.lean ====
section
/-!
DEFINITION. ADDI, ADD, SUB, MUL, SLTU, DIVU and REMU (spec/44_integer.md). None raises a condition, touches memory or
writes the pc beyond the advance.
-/
namespace Sys2Proof.Machine

/-- Write a result and advance: the common shape of the family. -/
def writeResult (rd : Reg) (v : Word) (s : State) : Result := .next ((s.writeReg rd v).advancePc)

/-- The low 64 bits of the product (R102). -/
def mulLow (a b : Word) : Word := BitVec.ofNat 64 (a.toNat * b.toNat)

/-- The unsigned quotient, DIVU_ZERO of the dividend for a zero divisor (R104). -/
def divUnsigned (cfg : Config) (a b : Word) : Word :=
  if b = 0#64 then cfg.divuZero a else BitVec.ofNat 64 (a.toNat / b.toNat)

/-- The unsigned remainder, REMU_ZERO of the dividend for a zero divisor (R105). -/
def remUnsigned (cfg : Config) (a b : Word) : Word :=
  if b = 0#64 then cfg.remuZero a else BitVec.ofNat 64 (a.toNat % b.toNat)

/-- ADDI (R99). -/
def execAddi (rd rs1 : Reg) (imm : BitVec 12) (s : State) : Result :=
  writeResult rd (s.readReg rs1 + immI imm) s

/-- ADD (R100). -/
def execAdd (rd rs1 rs2 : Reg) (s : State) : Result :=
  writeResult rd (s.readReg rs1 + s.readReg rs2) s

/-- SUB (R101). -/
def execSub (rd rs1 rs2 : Reg) (s : State) : Result :=
  writeResult rd (s.readReg rs1 - s.readReg rs2) s

/-- MUL (R102). -/
def execMul (rd rs1 rs2 : Reg) (s : State) : Result :=
  writeResult rd (mulLow (s.readReg rs1) (s.readReg rs2)) s

/-- SLTU (R103). -/
def execSltu (rd rs1 rs2 : Reg) (s : State) : Result :=
  writeResult rd (boolWord (lessUnsigned (s.readReg rs1) (s.readReg rs2))) s

/-- DIVU under a configuration (R104). -/
def divuWith (cfg : Config) (rd rs1 rs2 : Reg) (s : State) : Result :=
  writeResult rd (divUnsigned cfg (s.readReg rs1) (s.readReg rs2)) s

/-- REMU under a configuration (R105). -/
def remuWith (cfg : Config) (rd rs1 rs2 : Reg) (s : State) : Result :=
  writeResult rd (remUnsigned cfg (s.readReg rs1) (s.readReg rs2)) s

/-- DIVU on this hardware. -/
def execDivu (rd rs1 rs2 : Reg) (s : State) : Result := divuWith reference rd rs1 rs2 s

/-- REMU on this hardware. -/
def execRemu (rd rs1 rs2 : Reg) (s : State) : Result := remuWith reference rd rs1 rs2 s

end Sys2Proof.Machine
end

