-- ==== Sys2Proof/Machine/LoadStore.lean ====
section
/-!
DEFINITION. LD and SD (spec/43_load_store.md). The meanings are stated once for every configuration, since
MISALIGNED_DATA, B and C enter them.
-/
namespace Sys2Proof.Machine

/-- LD under a configuration (R94, R95). -/
def ldWith (cfg : Config) (rd rs1 : Reg) (imm : BitVec 12) (s : State) : Result :=
  match dataRead cfg s.mem (loadAddress s rs1 imm) with
  | .ok v => .next ((s.writeReg rd v).advancePc)
  | .error c => .next (s.advancePc.raise
      (dataRecord c .load s.pc (encode (.ld rd rs1 imm)) (loadAddress s rs1 imm) 64#8))

/-- SD under a configuration (R94, R96). -/
def sdWith (cfg : Config) (rs1 rs2 : Reg) (imm : BitVec 12) (s : State) : Result :=
  match dataWrite cfg s.mem (storeAddress s rs1 imm) (s.readReg rs2) with
  | .ok m => .next ({ s with mem := m }.advancePc)
  | .error c => .next (s.advancePc.raise
      (dataRecord c .store s.pc (encode (.sd rs1 rs2 imm)) (storeAddress s rs1 imm) 64#8))

/-- LD on this hardware. -/
def execLd (rd rs1 : Reg) (imm : BitVec 12) (s : State) : Result := ldWith reference rd rs1 imm s

/-- SD on this hardware. -/
def execSd (rs1 rs2 : Reg) (imm : BitVec 12) (s : State) : Result := sdWith reference rs1 rs2 imm s

end Sys2Proof.Machine
end

