-- ==== Sys2Proof/Machine/System.lean ====
section
/-!
DEFINITION. The SYSTEM family (spec/45_system.md): ECALL, EBREAK and every other SYSTEM word with funct3 = 000 are
no-ops, and only the pc advances (R106).
-/
namespace Sys2Proof.Machine

/-- The one no-op handler of R106. -/
def systemNoOp (s : State) : Result := .next s.advancePc

/-- ECALL (R106). -/
def execEcall (s : State) : Result := systemNoOp s

/-- EBREAK (R106). -/
def execEbreak (s : State) : Result := systemNoOp s

/-- Any other SYSTEM word with funct3 = 000: its fields are ignored (R71, R106). -/
def execSystemNop (_rd _rs1 : Reg) (_imm : BitVec 12) (s : State) : Result := systemNoOp s

end Sys2Proof.Machine
end

