-- ==== Sys2Proof/Machine/UpperAndJumps.lean ====
section
/-!
DEFINITION. LUI, JAL and JALR (spec/41_upper_and_jumps.md). A meaning runs in a state whose pc is pc_this, the
instruction's own address, and makes the advance to pc_this + 4 itself (log 1).
-/
namespace Sys2Proof.Machine

/-- Check a target, then link and jump; a misaligned target raises AddressMisaligned with nothing but the advance
done (R90, R91, R116). -/
def jumpAndLink (word : InstrWord) (rd : Reg) (target : Word) (s : State) : Result :=
  if TargetAligned target then .next ((s.writeReg rd (returnAddress s.pc)).setPc target)
  else .next (s.advancePc.raise (targetRecord .jump s.pc word target))

/-- LUI (R89). -/
def execLui (rd : Reg) (imm : BitVec 20) (s : State) : Result :=
  .next ((s.writeReg rd (immU imm)).advancePc)

/-- JAL (R90). -/
def execJal (rd : Reg) (offset : BitVec 21) (s : State) : Result :=
  jumpAndLink (encode (.jal rd offset)) rd (jalTarget s.pc offset) s

/-- JALR (R91): the target is computed from the old x[rs1]. -/
def execJalr (rd rs1 : Reg) (imm : BitVec 12) (funct3 : BitVec 3) (s : State) : Result :=
  jumpAndLink (encode (.jalr rd rs1 imm funct3)) rd (jalrTarget s rs1 imm) s

end Sys2Proof.Machine
end

