-- ==== Sys2Proof/Machine/Cycle.lean ====
section
/-!
DEFINITION. The fetch-execute cycle (spec/40_fetch_execute.md R76), for any configuration and any handlers; the whole
machine under any configuration of spec/00_scope.md R9.
-/
namespace Sys2Proof.Machine

/-- One step(): R76's stages in order. While HALTED it changes nothing (R77). A fetch condition leaves pc = pc_this, an
IllegalInstruction leaves pc_this + 4 (R84); a legal instruction's handler makes the advance (log 1). -/
def cycle (cfg : Config) (handler : Instr → State → Result) (s : State) : Result :=
  match s.run with
  | .halted => .next s
  | .running =>
    match fetch cfg s.zeroX0 with
    | .error r => .next (s.zeroX0.raise r)
    | .ok w =>
      match decodeWord cfg.divremOpcode w with
      | none => .next (s.zeroX0.advancePc.raise (illegalRecord s.pc w))
      | some i => handler i s.zeroX0

/-- The handlers under a configuration: `exec`'s, with the configuration where one enters. -/
def execWith (cfg : Config) (i : Instr) (s : State) : Result :=
  match i with
  | .ld rd rs1 imm => ldWith cfg rd rs1 imm s
  | .sd rs1 rs2 imm => sdWith cfg rs1 rs2 imm s
  | .divu rd rs1 rs2 => divuWith cfg rd rs1 rs2 s
  | .remu rd rs1 rs2 => remuWith cfg rd rs1 rs2 s
  | .lui rd imm => execLui rd imm s
  | .jal rd offset => execJal rd offset s
  | .jalr rd rs1 imm funct3 => execJalr rd rs1 imm funct3 s
  | .beq rs1 rs2 offset => execBeq rs1 rs2 offset s
  | .addi rd rs1 imm => execAddi rd rs1 imm s
  | .add rd rs1 rs2 => execAdd rd rs1 rs2 s
  | .sub rd rs1 rs2 => execSub rd rs1 rs2 s
  | .mul rd rs1 rs2 => execMul rd rs1 rs2 s
  | .sltu rd rs1 rs2 => execSltu rd rs1 rs2 s
  | .ecall => execEcall s
  | .ebreak => execEbreak s
  | .systemNop rd rs1 imm => execSystemNop rd rs1 imm s

/-- One step() of the machine under a configuration. -/
def stepWith (cfg : Config) (s : State) : Result := cycle cfg (execWith cfg) s

end Sys2Proof.Machine
end

