-- ==== Sys2Proof/Machine/Step.lean ====
section
/-!
DEFINITION. One step() of this hardware (spec/40_fetch_execute.md R76).
-/
namespace Sys2Proof.Machine

/-- One step() of the core in the reference configuration. -/
def step (s : State) : Host.Outcome State Fault Refusal := cycle reference exec s

/-- The instruction word stored where the next step fetches, as the external loader would (70_reset_and_hazards.md
R130; log 8). -/
def State.withFetchWord (s : State) (nbits w : Nat) : State := s.storeAtPc reference (tableWord nbits w)

end Sys2Proof.Machine
end

