-- ==== Sys2Proof/Machine/Assembly.lean ====
section
/-!
DEFINITION. The assembler convention of spec/30_encoding.md section 5 (R73 to R75): operand syntax, register names and
the pseudo-instructions whose expansion uses only the core's instructions. No rule of the machine depends on it (log 17).
-/
namespace Sys2Proof.Machine

/-- The numeric name of a register (R74). -/
def regName (r : Reg) : String := "x" ++ toString r.val

/-- The standard alias of each register (R74); x8 is also fp. -/
def abiNames : List (String × Reg) := [
  ("zero", 0), ("ra", 1), ("sp", 2), ("gp", 3), ("tp", 4), ("t0", 5), ("t1", 6), ("t2", 7),
  ("s0", 8), ("fp", 8), ("s1", 9),
  ("a0", 10), ("a1", 11), ("a2", 12), ("a3", 13), ("a4", 14), ("a5", 15), ("a6", 16), ("a7", 17),
  ("s2", 18), ("s3", 19), ("s4", 20), ("s5", 21), ("s6", 22), ("s7", 23), ("s8", 24), ("s9", 25),
  ("s10", 26), ("s11", 27), ("t3", 28), ("t4", 29), ("t5", 30), ("t6", 31)]

/-- The register an assembler name stands for (R74). -/
def regOfName (name : String) : Option Reg :=
  match (List.finRange 32).find? (fun r => regName r == name) with
  | some r => some r
  | none => (abiNames.find? (fun p => p.1 == name)).map Prod.snd

/-- An R-type operand list (R73). -/
def asmR (op : String) (rd rs1 rs2 : Reg) : String :=
  op ++ " " ++ regName rd ++ ", " ++ regName rs1 ++ ", " ++ regName rs2

/-- A base and offset operand, imm(rs1) (R73). -/
def asmBase (imm : BitVec 12) (rs1 : Reg) : String := toString imm.toInt ++ "(" ++ regName rs1 ++ ")"

/-- The assembler text of an instruction (R73), the LUI immediate in decimal. JALR words with a nonzero funct3 and the
unnamed SYSTEM words have no form in R73. -/
def asmText : Instr → Option String
  | .lui rd imm => some ("lui " ++ regName rd ++ ", " ++ toString imm.toNat)
  | .jal rd offset => some ("jal " ++ regName rd ++ ", " ++ toString offset.toInt)
  | .jalr rd rs1 imm funct3 =>
    if funct3 = 0 then some ("jalr " ++ regName rd ++ ", " ++ asmBase imm rs1) else none
  | .beq rs1 rs2 offset =>
    some ("beq " ++ regName rs1 ++ ", " ++ regName rs2 ++ ", " ++ toString offset.toInt)
  | .ld rd rs1 imm => some ("ld " ++ regName rd ++ ", " ++ asmBase imm rs1)
  | .sd rs1 rs2 imm => some ("sd " ++ regName rs2 ++ ", " ++ asmBase imm rs1)
  | .addi rd rs1 imm =>
    some ("addi " ++ regName rd ++ ", " ++ regName rs1 ++ ", " ++ toString imm.toInt)
  | .add rd rs1 rs2 => some (asmR "add" rd rs1 rs2)
  | .sub rd rs1 rs2 => some (asmR "sub" rd rs1 rs2)
  | .mul rd rs1 rs2 => some (asmR "mul" rd rs1 rs2)
  | .sltu rd rs1 rs2 => some (asmR "sltu" rd rs1 rs2)
  | .divu rd rs1 rs2 => some (asmR "divu" rd rs1 rs2)
  | .remu rd rs1 rs2 => some (asmR "remu" rd rs1 rs2)
  | .ecall => some "ecall"
  | .ebreak => some "ebreak"
  | .systemNop _ _ _ => none

/-- The pseudo-instructions of R75. -/
inductive Pseudo where
  | nop
  | mv (rd rs : Reg)
  /-- Both forms of `li`: the immediate decides. -/
  | li (rd : Reg) (imm : Int)
  | neg (rd rs : Reg)
  | snez (rd rs : Reg)
  | beqz (rs : Reg) (offset : BitVec 13)
  | j (offset : BitVec 21)
  /-- `jal offset`. -/
  | jalOffset (offset : BitVec 21)
  | jr (rs : Reg)
  /-- `jalr rs`. -/
  | jalrReg (rs : Reg)
  | ret
  | call (offset : BitVec 21)
deriving DecidableEq, Repr

/-- lo12 = sext_12(imm[11:0]) (R75). -/
def liLow (imm : Int) : BitVec 12 := BitVec.ofInt 12 imm

/-- hi20 = ((imm − lo12) >> 12)[19:0] (R75). -/
def liHigh (imm : Int) : BitVec 20 := BitVec.ofInt 20 ((imm - (liLow imm).toInt) / 4096)

/-- The expansion of a pseudo-instruction (R75); none for an `li` immediate outside 32 signed bits. -/
def Pseudo.expand : Pseudo → Option (List Instr)
  | .nop => some [.addi 0 0 0]
  | .mv rd rs => some [.addi rd rs 0]
  | .li rd imm =>
    if -2048 ≤ imm ∧ imm ≤ 2047 then some [.addi rd 0 (BitVec.ofInt 12 imm)]
    else if -2147483648 ≤ imm ∧ imm ≤ 2147483647 then some [.lui rd (liHigh imm), .addi rd rd (liLow imm)]
    else none
  | .neg rd rs => some [.sub rd 0 rs]
  | .snez rd rs => some [.sltu rd 0 rs]
  | .beqz rs offset => some [.beq rs 0 offset]
  | .j offset => some [.jal 0 offset]
  | .jalOffset offset => some [.jal 1 offset]
  | .jr rs => some [.jalr 0 rs 0 0]
  | .jalrReg rs => some [.jalr 1 rs 0 0]
  | .ret => some [.jalr 0 1 0 0]
  | .call offset => some [.jal 1 offset]

end Sys2Proof.Machine
end

