-- ==== Sys2Proof/Machine/Trace.lean ====
section
/-!
DEFINITION. The optional trace (spec/40_fetch_execute.md R88, spec/60_exceptions.md R127): an observer of committed
steps, outside the state. No definition of the machine uses it.
-/
namespace Sys2Proof.Machine

/-- The name a trace gives an instruction: R107 names the SYSTEM words by bits[31:20] alone. -/
def traceName : Instr → String
  | .systemNop _ _ imm => if imm = 0 then "ECALL" else if imm = 1 then "EBREAK" else "SYSTEM-NOP"
  | .lui rd imm => (Instr.lui rd imm).mnemonic
  | .jal rd offset => (Instr.jal rd offset).mnemonic
  | .jalr rd rs1 imm funct3 => (Instr.jalr rd rs1 imm funct3).mnemonic
  | .beq rs1 rs2 offset => (Instr.beq rs1 rs2 offset).mnemonic
  | .ld rd rs1 imm => (Instr.ld rd rs1 imm).mnemonic
  | .sd rs1 rs2 imm => (Instr.sd rs1 rs2 imm).mnemonic
  | .addi rd rs1 imm => (Instr.addi rd rs1 imm).mnemonic
  | .add rd rs1 rs2 => (Instr.add rd rs1 rs2).mnemonic
  | .sub rd rs1 rs2 => (Instr.sub rd rs1 rs2).mnemonic
  | .mul rd rs1 rs2 => (Instr.mul rd rs1 rs2).mnemonic
  | .sltu rd rs1 rs2 => (Instr.sltu rd rs1 rs2).mnemonic
  | .divu rd rs1 rs2 => (Instr.divu rd rs1 rs2).mnemonic
  | .remu rd rs1 rs2 => (Instr.remu rd rs1 rs2).mnemonic
  | .ecall => Instr.ecall.mnemonic
  | .ebreak => Instr.ebreak.mnemonic

/-- The instruction the next step executes: none while HALTED, or where the fetch or the decode raises a condition. -/
def nextInstr (cfg : Config) (s : State) : Option Instr :=
  match s.run, fetch cfg s with
  | .running, .ok w => decodeWord cfg.divremOpcode w
  | _, _ => none

/-- The trace record (address, mnemonic) of the step from s, emitted when the step commits (D23; log 15). -/
def traceRecord (s : State) : Option (Word × String) :=
  match nextInstr reference s, step s with
  | some i, .next t => if t.run = .running then some (s.pc, traceName i) else none
  | _, _ => none

end Sys2Proof.Machine
end

