-- ==== Sys2Proof/Safety.lean ====
section
/-!
DEFINITION. The terms claims are stated in: the invariant of the core, what a completing instruction leaves, what a
condition leaves, and safe runs.
-/
namespace Sys2Proof.Machine

/-! ## The invariant -/

/-- x0 holds 0 (10_state.md R18). -/
abbrev State.X0Zero (s : State) : Prop := s.regs[0] = 0

/-- pc mod 4 = 0 (10_state.md R25). -/
abbrev State.PcAligned (s : State) : Prop := s.pc.toNat % 4 = 0

/-- A halt record is held exactly while HALTED (10_state.md R32). -/
abbrev State.RecordWhenHalted (s : State) : Prop := s.run = .halted ↔ s.haltRecord.isSome

/-- A held record has the fields R117 gives it, names an aligned pc_this, and is no InvalidAccessSize (R114). -/
abbrev State.RecordWf (s : State) : Prop :=
  ∀ r ∈ s.haltRecord, r.wf ∧ r.pc.toNat % 4 = 0 ∧ r.condition ≠ .invalidAccessSize

/-- Where the pc stands after a halt: pc_this for a fetch condition, pc_this + 4 otherwise (40_fetch_execute.md R84). -/
abbrev State.HaltPc (s : State) : Prop :=
  ∀ r ∈ s.haltRecord, if r.kind = .fetch then s.pc = r.pc else s.pc = r.pc + 4#64

/-- The invariant of the core under a configuration. -/
abbrev State.Inv (cfg : Config) (s : State) : Prop :=
  s.X0Zero ∧ s.PcAligned ∧ s.RecordWhenHalted ∧ s.RecordWf ∧ s.HaltPc ∧ s.mem.wf ∧ s.mem.inRegion cfg

/-! ## What a step leaves -/

/-- Register rd reads v afterwards (0 if it is x0), and every other register reads as before (R18). -/
def State.RegWritten (s t : State) (rd : Reg) (v : Word) : Prop :=
  ∀ r, t.readReg r = if r = rd ∧ r ≠ 0 then v else s.readReg r

/-- Run state and halt record are as before. -/
abbrev State.SameRun (s t : State) : Prop := t.run = s.run ∧ t.haltRecord = s.haltRecord

/-- A register-writing instruction completed: rd, the advance, and nothing else. -/
def State.Retired (s t : State) (rd : Reg) (v : Word) : Prop :=
  s.RegWritten t rd v ∧ t.pc = s.pc + 4#64 ∧ t.mem = s.mem ∧ s.SameRun t

/-- A condition was raised: HALTED with the record and the pc, no register and no byte of memory written (R116). -/
def State.HaltedWith (s t : State) (r : HaltRecord) (pc : Word) : Prop :=
  t.run = .halted ∧ t.haltRecord = some r ∧ t.pc = pc ∧ t.regs = s.regs ∧ t.mem = s.mem

/-- A record without its instruction word: what two instructions of different words can have in common. -/
def HaltRecord.eraseWord (r : HaltRecord) : HaltRecord := { r with word := none }

/-- Two states hold no record, or records that agree in condition, kind, pc, addr and size. -/
abbrev State.SameRecordButWord (s t : State) : Prop :=
  s.haltRecord.map HaltRecord.eraseWord = t.haltRecord.map HaltRecord.eraseWord

/-- Every byte outside the n bytes at a reads as before. -/
def Memory.SameOutside (m m' : Memory) (a n : Nat) : Prop :=
  ∀ x, ¬ (a ≤ x ∧ x < a + n) → m'.readByte x = m.readByte x

/-! ## Safe runs -/

/-- k steps from s end in a RUNNING state: no condition was raised on the way (40_fetch_execute.md R87). -/
def SafeFor (k : Nat) (s : State) : Prop :=
  ∃ t, Host.Core.run Sys2Proof.core k s = .next t ∧ t.run = .running

end Sys2Proof.Machine
end

