-- ==== Sys2Proof/Certificates/Slice0/Obligations.lean ====
section
/-!
DEFINITION. The statements for the provers, each from the numbered rules of spec/. Addresses of the reference
configuration are written as numbers: B = 0x8000_0000 and B + C = 0x8010_0000.
-/

open Sys2Proof Sys2Proof.Machine

/-! ## Encoding -/

/-- R56, R57, R67, R68: decoding an encoded well-formed instruction gives it back, every operand at every value and
under both values of DIVREM_OPCODE. -/
def Obligations.DecodeOfEncodeIsIdentity : Prop :=
  ∀ (d : DivremOpcode) (i : Instr), i.wf = true → decodeWord d (encodeWith d i) = some i

/-- R68, R71: a legal word is the encoding of the instruction it decodes to, which is well formed: no bit of a word is
dropped. -/
def Obligations.EncodeOfDecodeIsIdentity : Prop :=
  ∀ (d : DivremOpcode) (w : InstrWord) (i : Instr),
    decodeWord d w = some i → encodeWith d i = w ∧ i.wf = true

/-- R67, R69: the decoder answers the first row of the opcode table whose fixed bits the word has, and Illegal exactly
where there is none. -/
def Obligations.DecodeFollowsOpcodeTable : Prop :=
  ∀ (d : DivremOpcode) (w : InstrWord),
    (decodeWord d w).map Instr.mnemonic =
      ((opcodeMap d).find? fun row => row.admits w).map OpcodeRow.mnemonic

/-- The spec's own example words (95_test_vectors.md V1, V10, V20, V30, V40, V50, V60, V90) decode to what it says. -/
def Obligations.SpecWordsDecode : Prop :=
  decodeTableWord 32 0xABCDE0B7 = some (.lui 1 0xABCDE) ∧
  decodeTableWord 32 0x008000EF = some (.jal 1 8) ∧
  decodeTableWord 32 0x00008067 = some (.jalr 0 1 0 0) ∧
  decodeTableWord 32 0x00208863 = some (.beq 1 2 16) ∧
  decodeTableWord 32 0x00813283 = some (.ld 5 2 8) ∧
  decodeTableWord 32 0xFE613C23 = some (.sd 2 6 (-8)) ∧
  decodeTableWord 32 0xFFF08093 = some (.addi 1 1 (-1)) ∧
  decodeTableWord 32 0x0220D1BB = some (.divu 3 1 2) ∧
  decodeTableWord 32 0x00000073 = some .ecall ∧
  decodeTableWord 32 0x00000000 = none

/-- R58 to R62: which bit of the word each bit of the five 64-bit immediates is. -/
def Obligations.ImmediateBitPositions : Prop :=
  ∀ (w : InstrWord) (k : Nat), k < 64 →
    (immIOf w).getLsbD k = (if k < 11 then w.getLsbD (k + 20) else w.getLsbD 31) ∧
    (immSOf w).getLsbD k =
      (if k < 5 then w.getLsbD (k + 7) else if k < 11 then w.getLsbD (k + 20) else w.getLsbD 31) ∧
    (immBOf w).getLsbD k =
      (if k = 0 then false else if k < 5 then w.getLsbD (k + 7) else if k < 11 then w.getLsbD (k + 20)
       else if k = 11 then w.getLsbD 7 else w.getLsbD 31) ∧
    (immUOf w).getLsbD k = (if k < 12 then false else if k < 31 then w.getLsbD k else w.getLsbD 31) ∧
    (immJOf w).getLsbD k =
      (if k = 0 then false else if k < 11 then w.getLsbD (k + 20) else if k = 11 then w.getLsbD 20
       else if k < 20 then w.getLsbD k else w.getLsbD 31)

/-- R66 (the spec's decision D2; log 4): with DIVREM_OPCODE = OP-32 the standard OP words of DIVU and REMU are
Illegal; with OP every OP-32 word is Illegal, and the same funct3 and funct7 select DIVU and REMU in OP. -/
def Obligations.DivremOpcodeSelectsFamily : Prop :=
  ∀ w : InstrWord,
    (opcodeOf w = 0b0111011#7 → decodeWord .op w = none) ∧
    (funct3Of w = 0b101#3 ∧ funct7Of w = 0b0000001#7 →
      (opcodeOf w = 0b0111011#7 → decodeWord .op32 w = some (.divu (rdOf w) (rs1Of w) (rs2Of w))) ∧
      (opcodeOf w = 0b0110011#7 → decodeWord .op32 w = none ∧
        decodeWord .op w = some (.divu (rdOf w) (rs1Of w) (rs2Of w)))) ∧
    (funct3Of w = 0b111#3 ∧ funct7Of w = 0b0000001#7 →
      (opcodeOf w = 0b0111011#7 → decodeWord .op32 w = some (.remu (rdOf w) (rs1Of w) (rs2Of w))) ∧
      (opcodeOf w = 0b0110011#7 → decodeWord .op32 w = none ∧
        decodeWord .op w = some (.remu (rdOf w) (rs1Of w) (rs2Of w))))

/-- R107 (the spec's decision D4; log 9): the trace names a SYSTEM word by its bits[31:20] alone. -/
def Obligations.SystemWordTraceName : Prop :=
  ∀ (d : DivremOpcode) (w : InstrWord) (i : Instr), opcodeOf w = 0b1110011#7 → decodeWord d w = some i →
    traceName i =
      if w.extractLsb' 20 12 = 0#12 then "ECALL" else if w.extractLsb' 20 12 = 1#12 then "EBREAK" else "SYSTEM-NOP"

/-! ## The step -/

/-- R76, R82: when the four bytes at a RUNNING core's aligned pc decode to i, the step is i's meaning after stage 1 has
set x0 to 0; and so under every configuration, where the word may also be Illegal: then the step halts with pc + 4 and
the record of the word (R81; the pc is the spec's decision D12, log 21, the record's format D13, log 14). The meaning
makes the advance of stage 3 itself (log 1). -/
def Obligations.StepRunsDecodedInstruction : Prop :=
  (∀ (s : State) (i : Instr) (b0 b1 b2 b3 : Byte),
    s.run = .running → s.pc.toNat % 4 = 0 → 0x80000000 ≤ s.pc.toNat → s.pc.toNat + 4 ≤ 0x80100000 →
    s.mem.readByte s.pc.toNat = b0 → s.mem.readByte (s.pc.toNat + 1) = b1 →
    s.mem.readByte (s.pc.toNat + 2) = b2 → s.mem.readByte (s.pc.toNat + 3) = b3 →
    decodeWord .op32 (b3 ++ b2 ++ b1 ++ b0) = some i →
    step s = exec i { s with regs := s.regs.set 0 0 }) ∧
  ∀ (cfg : Config) (s : State) (b0 b1 b2 b3 : Byte),
    s.run = .running → s.pc.toNat % 4 = 0 → cfg.memBase ≤ s.pc.toNat →
    s.pc.toNat + 4 ≤ cfg.memBase + cfg.memSize →
    s.mem.readByte s.pc.toNat = b0 → s.mem.readByte (s.pc.toNat + 1) = b1 →
    s.mem.readByte (s.pc.toNat + 2) = b2 → s.mem.readByte (s.pc.toNat + 3) = b3 →
    (∀ i, decodeWord cfg.divremOpcode (b3 ++ b2 ++ b1 ++ b0) = some i →
      stepWith cfg s = execWith cfg i { s with regs := s.regs.set 0 0 }) ∧
    (decodeWord cfg.divremOpcode (b3 ++ b2 ++ b1 ++ b0) = none → ∃ t, stepWith cfg s = .next t ∧
      s.zeroX0.HaltedWith t
        ⟨.illegalInstruction, .decode, s.pc, some (b3 ++ b2 ++ b1 ++ b0), none, none⟩ (s.pc + 4))

/-- R79 (the pc at a halt is the spec's decision D12, log 21; the record's format D13, log 14; the alignment check D29,
log 21): the fetch stage. A misaligned pc raises AddressMisaligned, an aligned pc outside memory raises OutOfBounds of
size 32, both with pc left at pc_this; otherwise the fetched word is the four bytes at pc, little-endian. -/
def Obligations.FetchStage : Prop :=
  ∀ s : State, s.run = .running →
    (s.pc.toNat % 4 ≠ 0 → ∃ t, step s = .next t ∧
      s.zeroX0.HaltedWith t ⟨.addressMisaligned, .fetch, s.pc, none, some s.pc, none⟩ s.pc) ∧
    (s.pc.toNat % 4 = 0 → ¬ (0x80000000 ≤ s.pc.toNat ∧ s.pc.toNat + 4 ≤ 0x80100000) → ∃ t, step s = .next t ∧
      s.zeroX0.HaltedWith t ⟨.outOfBounds, .fetch, s.pc, none, some s.pc, some 32⟩ s.pc) ∧
    (s.pc.toNat % 4 = 0 → 0x80000000 ≤ s.pc.toNat → s.pc.toNat + 4 ≤ 0x80100000 →
      fetch reference s = .ok (s.mem.readByte (s.pc.toNat + 3) ++ s.mem.readByte (s.pc.toNat + 2) ++
        s.mem.readByte (s.pc.toNat + 1) ++ s.mem.readByte s.pc.toNat))

/-- R111: a fetched word that decode maps to Illegal halts the core, recording the word and pc_this. The pc stands at
pc_this + 4 (R81, R84: the spec's decision D12, log 21), nothing else is written (R116), and the record has no address
and no size (R117: the spec's format D13, log 14). -/
def Obligations.IllegalWordHalts : Prop :=
  ∀ (s : State) (w : InstrWord), s.run = .running → fetch reference s = .ok w → decodeWord .op32 w = none →
    ∃ t, step s = .next t ∧
      s.zeroX0.HaltedWith t ⟨.illegalInstruction, .decode, s.pc, some w, none, none⟩ (s.pc + 4)

/-- R77 (the spec's choice D14; log 18): a step while HALTED changes no state and returns the stored record. -/
def Obligations.HaltedStepChangesNothing : Prop :=
  ∀ s : State, s.run = .halted →
    step s = .next s ∧ ∀ r, s.haltRecord = some r → s.result = .halt r

/-- R76, R115 (a condition is a next state: the model's reading, log 2): every step of every state answers a next
state, under every configuration: no fault and no refusal. -/
def Obligations.EveryStepAnswersNextState : Prop :=
  (∀ s : State, ∃ t, step s = .next t) ∧ ∀ (cfg : Config) (s : State), ∃ t, stepWith cfg s = .next t

/-- The parametric machine at the reference configuration is the machine. -/
def Obligations.StepIsStepWithReference : Prop :=
  ∀ s : State, stepWith reference s = step s

/-- R31, R77 (the spec's choice D14; log 18): HALTED is left by no step, so a safe run was safe at every earlier
point. -/
def Obligations.SafeRunsAreSafeThroughout : Prop :=
  ∀ (j k : Nat) (s : State), SafeFor (j + k) s → SafeFor j s

/-! ## Invariants -/

/-- The invariant (x0 is 0, pc mod 4 = 0, a record exactly while HALTED, the record's fields, the pc at a halt, the
canonical form of memory, nothing listed outside the region) is kept by every step. -/
def Obligations.StepKeepsInvariant : Prop :=
  ∀ s t : State, s.Inv reference → step s = .next t → t.Inv reference

/-- The invariant holds at reset. -/
def Obligations.ResetMeetsInvariant : Prop := State.reset.Inv reference

/-- The same for every configuration that R9 allows. -/
def Obligations.StepKeepsInvariantForEveryConfiguration : Prop :=
  ∀ (cfg : Config) (s t : State), cfg.Valid → s.Inv cfg → stepWith cfg s = .next t → t.Inv cfg

/-- R129 (log 8): power-on, loading and reset() leave the invariant, for every image and every allowed configuration.
-/
def Obligations.BootMeetsInvariant : Prop :=
  ∀ (cfg : Config) (image : List Byte) (s : State), cfg.Valid → boot cfg image = some s → s.Inv cfg

/-- Every state that any number of steps reaches from any state with the invariant has it. -/
def Obligations.EveryReachedStateMeetsInvariant : Prop :=
  ∀ (k : Nat) (s t : State), s.Inv reference → Host.Core.run Sys2Proof.core k s = .next t → t.Inv reference

/-- R25 (the spec derives it): the pc is aligned at reset, and every step keeps it so. -/
def Obligations.PcStaysAligned : Prop :=
  State.reset.pc.toNat % 4 = 0 ∧
  ∀ s t : State, s.pc.toNat % 4 = 0 → step s = .next t → t.pc.toNat % 4 = 0

/-- R18: x0 reads 0, a write to it is discarded, and the register itself is 0 after any step of a RUNNING core. -/
def Obligations.X0IsHardwiredToZero : Prop :=
  (∀ s : State, s.readReg 0 = 0) ∧ (∀ (s : State) (v : Word), s.writeReg 0 v = s) ∧
  (∀ (s : State) (r q : Reg) (v : Word), r ≠ 0 → (s.writeReg r v).readReg q = if q = r then v else s.readReg q) ∧
  ∀ s t : State, s.run = .running → step s = .next t → t.regs[0] = 0

/-! ## Rules of the whole machine -/

/-- R84, R116 (the pc at a halt is the spec's decision D12; log 21): a step that halts has written no register and no
memory; the record holds pc_this; pc is pc_this after a fetch condition and pc_this + 4 otherwise. -/
def Obligations.HaltIsPrecise : Prop :=
  ∀ s t : State, s.run = .running → step s = .next t → t.run = .halted →
    t.regs = s.regs.set 0 0 ∧ t.mem = s.mem ∧
    ∃ r, t.haltRecord = some r ∧ r.pc = s.pc ∧ t.pc = if r.kind = .fetch then s.pc else s.pc + 4

/-- R117 (the spec's format D13; logs 10 and 14): the record a halting step stores has the fields of the table; its
word is the fetched word, its size 32 for a fetch and 64 for a load or store, its address pc_this for a fetch. -/
def Obligations.HaltRecordFields : Prop :=
  ∀ (s t : State) (r : HaltRecord), s.run = .running → step s = .next t → t.run = .halted → t.haltRecord = some r →
    r.wf ∧ r.pc = s.pc ∧ (∀ w, r.word = some w → fetch reference s = .ok w) ∧
    (∀ n, r.size = some n → n = if r.kind = .fetch then 32 else 64) ∧
    (∀ a, r.kind = .fetch → r.addr = some a → a = s.pc)

/-- R39, R114 (the size's width is the model's, log 12): the bus raises InvalidAccessSize for every size but 8, 16, 32
and 64, and no step raises it. -/
def Obligations.InvalidAccessSizeOnlyAtTheBus : Prop :=
  (∀ (cfg : Config) (m : Memory) (addr v : Word) (size : BitVec 8),
    ¬ (size = 8 ∨ size = 16 ∨ size = 32 ∨ size = 64) →
      memRead cfg m addr size = .error .invalidAccessSize ∧ memWrite cfg m addr size v = .error .invalidAccessSize) ∧
  ∀ (s t : State) (r : HaltRecord), s.run = .running → step s = .next t → t.run = .halted →
    t.haltRecord = some r → r.condition ≠ .invalidAccessSize

/-- R24: apart from reset(), pc is written by the advance, by a JAL or JALR, and by a taken BEQ, and by nothing else.
-/
def Obligations.OnlyJumpsAndTakenBranchesRedirect : Prop :=
  (∀ (s t : State) (i : Instr), s.run = .running → nextInstr reference s = some i → step s = .next t →
    t.pc = s.pc + 4 ∨
    (∃ rd offset, i = .jal rd offset ∧ t.pc = s.pc + offset.signExtend 64) ∨
    (∃ rd rs1 imm f3, i = .jalr rd rs1 imm f3 ∧ t.pc = (s.readReg rs1 + imm.signExtend 64) &&& ~~~1#64) ∨
    (∃ rs1 rs2 offset, i = .beq rs1 rs2 offset ∧ s.readReg rs1 = s.readReg rs2 ∧
      t.pc = s.pc + offset.signExtend 64)) ∧
  (∀ s t : State, s.run = .running → nextInstr reference s = none → step s = .next t →
    t.pc = s.pc ∨ t.pc = s.pc + 4) ∧
  ∀ s : State, (s.resetMachine reference).pc = 0x80000000

/-- R44, R50: only an SD changes memory, and only the eight bytes at its address. -/
def Obligations.OnlyStoresChangeMemory : Prop :=
  ∀ s t : State, s.run = .running → step s = .next t → t.mem ≠ s.mem →
    ∃ rs1 rs2 imm, nextInstr reference s = some (.sd rs1 rs2 imm) ∧
      Memory.SameOutside s.mem t.mem (s.readReg rs1 + imm.signExtend 64).toNat 8

/-- R19 (the spec derives its table): an instruction changes no register but its destination. -/
def Obligations.OnlyDestinationChanges : Prop :=
  ∀ (i : Instr) (s t : State), exec i s = .next t →
    ∀ r, t.readReg r ≠ s.readReg r → destination i = some r ∧ r ≠ 0

/-- R19 (the spec derives its table): what an instruction does depends on no register but its sources. -/
def Obligations.OnlySourcesAreRead : Prop :=
  ∀ (i : Instr) (s s' t t' : State), s.run = .running → s'.run = .running → s.haltRecord = s'.haltRecord →
    s.pc = s'.pc → s.mem = s'.mem → (∀ r ∈ sources i, s.readReg r = s'.readReg r) →
    exec i s = .next t → exec i s' = .next t' →
    t.pc = t'.pc ∧ t.mem = t'.mem ∧ t.run = t'.run ∧ t.haltRecord = t'.haltRecord ∧
    (t.run = .running → ∀ r, destination i = some r → t.readReg r = t'.readReg r)

/-- R72 (the spec derives it): an instruction whose rd is x0 changes no register; everything else it does (its checks,
its access, its transfer, the record of a condition in all but the word) is what the same instruction with another rd
does. Shown for JAL, JALR and LD, and no register for any. -/
def Obligations.DestinationX0ExecutesFully : Prop :=
  (∀ (i : Instr) (s t : State), destination i = some 0 → exec i s = .next t → ∀ r, t.readReg r = s.readReg r) ∧
  ∀ (rd rs1 : Reg) (offset : BitVec 21) (imm : BitVec 12) (f3 : BitVec 3) (s : State),
    (∃ t t', exec (.jal 0 offset) s = .next t ∧ exec (.jal rd offset) s = .next t' ∧
      t.pc = t'.pc ∧ t.run = t'.run ∧ t.mem = t'.mem ∧ t.SameRecordButWord t') ∧
    (∃ t t', exec (.jalr 0 rs1 imm f3) s = .next t ∧ exec (.jalr rd rs1 imm f3) s = .next t' ∧
      t.pc = t'.pc ∧ t.run = t'.run ∧ t.mem = t'.mem ∧ t.SameRecordButWord t') ∧
    (∃ t t', exec (.ld 0 rs1 imm) s = .next t ∧ exec (.ld rd rs1 imm) s = .next t' ∧
      t.pc = t'.pc ∧ t.run = t'.run ∧ t.mem = t'.mem ∧ t.SameRecordButWord t')

/-! ## LUI, JAL, JALR, BEQ -/

/-- R89: opcode 0110111 alone selects LUI, which writes the sign-extended U-type immediate; it completes in every
state. -/
def Obligations.LuiWritesUpperImmediate : Prop :=
  (∀ (d : DivremOpcode) (w : InstrWord), opcodeOf w = 0b0110111#7 →
    decodeWord d w = some (.lui (rdOf w) (fieldU w))) ∧
  ∀ (rd : Reg) (imm : BitVec 20) (s : State), ∃ t, exec (.lui rd imm) s = .next t ∧
    s.Retired t rd ((imm ++ 0#12 : BitVec 32).signExtend 64)

/-- R90: opcode 1101111 alone selects JAL. With an aligned target it links and jumps; with a misaligned one it raises
AddressMisaligned of kind jump and writes nothing. The pc at the halt is the spec's decision D12 (R84, log 21); the
record's format is D13 (R117, log 14), and its word is the encoding of the instruction (log 10). -/
def Obligations.JalLinksAndJumps : Prop :=
  (∀ (d : DivremOpcode) (w : InstrWord), opcodeOf w = 0b1101111#7 →
    decodeWord d w = some (.jal (rdOf w) (fieldJ w))) ∧
  ∀ (rd : Reg) (offset : BitVec 21) (s : State),
    ((s.pc + offset.signExtend 64).toNat % 4 = 0 → ∃ t, exec (.jal rd offset) s = .next t ∧
      s.RegWritten t rd (s.pc + 4) ∧ t.pc = s.pc + offset.signExtend 64 ∧ t.mem = s.mem ∧ s.SameRun t) ∧
    ((s.pc + offset.signExtend 64).toNat % 4 ≠ 0 → ∃ t, exec (.jal rd offset) s = .next t ∧
      s.HaltedWith t ⟨.addressMisaligned, .jump, s.pc, some (encode (.jal rd offset)),
        some (s.pc + offset.signExtend 64), none⟩ (s.pc + 4))

/-- R91: opcode 1100111 alone selects JALR (the spec's decision D3; log 19). Its target is the old x[rs1] + imm_I with
bit 0 cleared. With bit 1 of it clear JALR links and jumps; with bit 1 set it raises AddressMisaligned of kind jump and
writes nothing. The pc at the halt is the spec's decision D12 (R84, log 21); the record's format is D13 (R117, log 14),
and its word is the encoding of the instruction (log 10). -/
def Obligations.JalrLinksAndJumps : Prop :=
  (∀ (d : DivremOpcode) (w : InstrWord), opcodeOf w = 0b1100111#7 →
    decodeWord d w = some (.jalr (rdOf w) (rs1Of w) (fieldI w) (funct3Of w))) ∧
  ∀ (rd rs1 : Reg) (imm : BitVec 12) (f3 : BitVec 3) (s : State),
    ((s.readReg rs1 + imm.signExtend 64).getLsbD 1 = false → ∃ t, exec (.jalr rd rs1 imm f3) s = .next t ∧
      s.RegWritten t rd (s.pc + 4) ∧
      t.pc.toNat = (s.readReg rs1 + imm.signExtend 64).toNat / 2 * 2 ∧ t.mem = s.mem ∧ s.SameRun t) ∧
    ((s.readReg rs1 + imm.signExtend 64).getLsbD 1 = true → ∃ t, exec (.jalr rd rs1 imm f3) s = .next t ∧
      s.HaltedWith t ⟨.addressMisaligned, .jump, s.pc, some (encode (.jalr rd rs1 imm f3)),
        some ((s.readReg rs1 + imm.signExtend 64) &&& 0xFFFFFFFFFFFFFFFE#64), none⟩ (s.pc + 4))

/-- R71 (the spec's decision D3; log 19): every word with JALR's opcode is a JALR, and its funct3 changes nothing but
the word of a halt record: the record's other fields agree, and with an aligned target the whole state does. -/
def Obligations.JalrIgnoresFunct3 : Prop :=
  (∀ (d : DivremOpcode) (w : InstrWord), opcodeOf w = 0b1100111#7 →
    decodeWord d w = some (.jalr (rdOf w) (rs1Of w) (fieldI w) (funct3Of w))) ∧
  ∀ (rd rs1 : Reg) (imm : BitVec 12) (f g : BitVec 3) (s : State),
    ∃ t t', exec (.jalr rd rs1 imm f) s = .next t ∧ exec (.jalr rd rs1 imm g) s = .next t' ∧
      t.regs = t'.regs ∧ t.pc = t'.pc ∧ t.mem = t'.mem ∧ t.run = t'.run ∧ t.SameRecordButWord t' ∧
      (TargetAligned (jalrTarget s rs1 imm) → t = t')

/-- R92: BRANCH with funct3 = 000 selects BEQ, any other funct3 is Illegal. A taken BEQ branches from its own address;
an untaken one falls through whatever its offset (the spec's decision D10; log 20); only a taken one with a misaligned
target raises AddressMisaligned. No register is written. The pc at the halt is the spec's decision D12 (R84, log 21);
the record's format is D13 (R117, log 14), and its word is the encoding of the instruction (log 10). -/
def Obligations.BeqBranchesIfEqual : Prop :=
  (∀ (d : DivremOpcode) (w : InstrWord), opcodeOf w = 0b1100011#7 →
    decodeWord d w = if funct3Of w = 0b000#3 then some (.beq (rs1Of w) (rs2Of w) (fieldB w)) else none) ∧
  ∀ (rs1 rs2 : Reg) (offset : BitVec 13) (s : State),
    (s.readReg rs1 = s.readReg rs2 → (s.pc + offset.signExtend 64).toNat % 4 = 0 →
      ∃ t, exec (.beq rs1 rs2 offset) s = .next t ∧ t.regs = s.regs ∧ t.pc = s.pc + offset.signExtend 64 ∧
        t.mem = s.mem ∧ s.SameRun t) ∧
    (s.readReg rs1 ≠ s.readReg rs2 →
      ∃ t, exec (.beq rs1 rs2 offset) s = .next t ∧ t.regs = s.regs ∧ t.pc = s.pc + 4 ∧
        t.mem = s.mem ∧ s.SameRun t) ∧
    (s.readReg rs1 = s.readReg rs2 → (s.pc + offset.signExtend 64).toNat % 4 ≠ 0 →
      ∃ t, exec (.beq rs1 rs2 offset) s = .next t ∧
        s.HaltedWith t ⟨.addressMisaligned, .branch, s.pc, some (encode (.beq rs1 rs2 offset)),
          some (s.pc + offset.signExtend 64), none⟩ (s.pc + 4))

/-- The linkage property of R91: a JALR through the link register of a JAL resumes at the instruction after the JAL.
-/
def Obligations.JalThenJalrResumesAfterJal : Prop :=
  ∀ (rd link : Reg) (offset : BitVec 21) (f3 : BitVec 3) (s : State),
    link ≠ 0 → s.pc.toNat % 4 = 0 → (s.pc + offset.signExtend 64).toNat % 4 = 0 →
    ∃ t u, exec (.jal link offset) s = .next t ∧ exec (.jalr rd link 0 f3) t = .next u ∧
      u.pc = s.pc + 4 ∧ u.mem = s.mem ∧ s.SameRun u

/-! ## LD and SD -/

/-- R95: with an aligned address in bounds LD writes the doubleword there, little-endian, to rd, and nothing else. -/
def Obligations.LdLoadsDoubleword : Prop :=
  ∀ (rd rs1 : Reg) (imm : BitVec 12) (s : State) (addr : Word),
    addr = s.readReg rs1 + imm.signExtend 64 → addr.toNat % 8 = 0 →
    0x80000000 ≤ addr.toNat → addr.toNat + 8 ≤ 0x80100000 →
    ∃ t v, exec (.ld rd rs1 imm) s = .next t ∧ s.Retired t rd v ∧
      ∀ k < 8, v.extractLsb' (8 * k) 8 = s.mem.readByte (addr.toNat + k)

/-- R96: with an aligned address in bounds SD writes the eight bytes of x[rs2] there, little-endian; every other byte
reads as before, and no register is written. -/
def Obligations.SdStoresDoubleword : Prop :=
  ∀ (rs1 rs2 : Reg) (imm : BitVec 12) (s : State) (addr : Word),
    addr = s.readReg rs1 + imm.signExtend 64 → addr.toNat % 8 = 0 →
    0x80000000 ≤ addr.toNat → addr.toNat + 8 ≤ 0x80100000 →
    ∃ t, exec (.sd rs1 rs2 imm) s = .next t ∧ t.regs = s.regs ∧ t.pc = s.pc + 4 ∧ s.SameRun t ∧
      (∀ k < 8, t.mem.readByte (addr.toNat + k) = (s.readReg rs2).extractLsb' (8 * k) 8) ∧
      Memory.SameOutside s.mem t.mem addr.toNat 8

/-- R94 (alignment and its order are the spec's decisions D8 and D9; logs 5 and 21): the checks of LD and SD in their
order. A misaligned address raises AddressMisaligned, in bounds or not; an aligned one out of bounds raises OutOfBounds;
nothing is written. The pc at the halt is D12 (R84, log 21); the record is D13 (R117, logs 10 and 14). -/
def Obligations.DataAccessChecks : Prop :=
  ∀ (r rs1 : Reg) (imm : BitVec 12) (s : State) (addr : Word), addr = s.readReg rs1 + imm.signExtend 64 →
    (addr.toNat % 8 ≠ 0 →
      (∃ t, exec (.ld r rs1 imm) s = .next t ∧ s.HaltedWith t
        ⟨.addressMisaligned, .load, s.pc, some (encode (.ld r rs1 imm)), some addr, some 64⟩ (s.pc + 4)) ∧
      (∃ t, exec (.sd rs1 r imm) s = .next t ∧ s.HaltedWith t
        ⟨.addressMisaligned, .store, s.pc, some (encode (.sd rs1 r imm)), some addr, some 64⟩ (s.pc + 4))) ∧
    (addr.toNat % 8 = 0 → ¬ (0x80000000 ≤ addr.toNat ∧ addr.toNat + 8 ≤ 0x80100000) →
      (∃ t, exec (.ld r rs1 imm) s = .next t ∧ s.HaltedWith t
        ⟨.outOfBounds, .load, s.pc, some (encode (.ld r rs1 imm)), some addr, some 64⟩ (s.pc + 4)) ∧
      (∃ t, exec (.sd rs1 r imm) s = .next t ∧ s.HaltedWith t
        ⟨.outOfBounds, .store, s.pc, some (encode (.sd rs1 r imm)), some addr, some 64⟩ (s.pc + 4)))

/-- R47 (the spec's choice D8; log 5): under MISALIGNED_DATA = perform an LD or SD at any address is made byte by byte,
with the bounds check on the whole range; under halt a misaligned one raises AddressMisaligned before the bounds check,
and an aligned one is made, or raises OutOfBounds, as under perform. For every configuration. (The records: D13, logs 10
and 14; the pc at a halt: D12, log 21.) -/
def Obligations.MisalignedDataParameter : Prop :=
  ∀ (cfg : Config) (r rs1 : Reg) (imm : BitVec 12) (s : State) (addr : Word),
    addr = s.readReg rs1 + imm.signExtend 64 →
    (cfg.misalignedData = .perform ∨ addr.toNat % 8 = 0 →
      cfg.memBase ≤ addr.toNat → addr.toNat + 8 ≤ cfg.memBase + cfg.memSize →
      (∃ t v, execWith cfg (.ld r rs1 imm) s = .next t ∧ s.Retired t r v ∧
        ∀ k < 8, v.extractLsb' (8 * k) 8 = s.mem.readByte (addr.toNat + k)) ∧
      (∃ t, execWith cfg (.sd rs1 r imm) s = .next t ∧ t.regs = s.regs ∧ t.pc = s.pc + 4 ∧ s.SameRun t ∧
        (∀ k < 8, t.mem.readByte (addr.toNat + k) = (s.readReg r).extractLsb' (8 * k) 8) ∧
        Memory.SameOutside s.mem t.mem addr.toNat 8)) ∧
    (cfg.misalignedData = .perform ∨ addr.toNat % 8 = 0 →
      ¬ (cfg.memBase ≤ addr.toNat ∧ addr.toNat + 8 ≤ cfg.memBase + cfg.memSize) →
      (∃ t, execWith cfg (.ld r rs1 imm) s = .next t ∧ s.HaltedWith t
        ⟨.outOfBounds, .load, s.pc, some (encode (.ld r rs1 imm)), some addr, some 64⟩ (s.pc + 4)) ∧
      (∃ t, execWith cfg (.sd rs1 r imm) s = .next t ∧ s.HaltedWith t
        ⟨.outOfBounds, .store, s.pc, some (encode (.sd rs1 r imm)), some addr, some 64⟩ (s.pc + 4))) ∧
    (cfg.misalignedData = .halt → addr.toNat % 8 ≠ 0 →
      (∃ t, execWith cfg (.ld r rs1 imm) s = .next t ∧ s.HaltedWith t
        ⟨.addressMisaligned, .load, s.pc, some (encode (.ld r rs1 imm)), some addr, some 64⟩ (s.pc + 4)) ∧
      (∃ t, execWith cfg (.sd rs1 r imm) s = .next t ∧ s.HaltedWith t
        ⟨.addressMisaligned, .store, s.pc, some (encode (.sd rs1 r imm)), some addr, some 64⟩ (s.pc + 4)))

/-- The round trip of R96: an SD followed by an LD from the same address yields the stored value. -/
def Obligations.StoreThenLoadReturnsValue : Prop :=
  ∀ (rd rs1 rs2 : Reg) (imm : BitVec 12) (s : State) (addr : Word),
    addr = s.readReg rs1 + imm.signExtend 64 → addr.toNat % 8 = 0 →
    0x80000000 ≤ addr.toNat → addr.toNat + 8 ≤ 0x80100000 →
    ∃ t u, exec (.sd rs1 rs2 imm) s = .next t ∧ exec (.ld rd rs1 imm) t = .next u ∧
      s.RegWritten u rd (s.readReg rs2) ∧ u.mem = t.mem

/-- R53 (the spec derives it; D20): an SD that overwrites the word the next step fetches changes that step's
instruction: its low half where the address is pc_this + 4, its high half where it is pc_this. Under every
configuration the next fetch sees each byte of any SD that completes, wherever it overlaps the word. -/
def Obligations.StoreIsSeenByNextFetch : Prop :=
  (∀ (rs1 rs2 : Reg) (imm : BitVec 12) (s : State),
    s.pc + 4 = s.readReg rs1 + imm.signExtend 64 → (s.pc + 4).toNat % 8 = 0 →
    0x80000000 ≤ (s.pc + 4).toNat → (s.pc + 4).toNat + 8 ≤ 0x80100000 →
    ∃ t, exec (.sd rs1 rs2 imm) s = .next t ∧
      fetch reference t = .ok ((s.readReg rs2).extractLsb' 0 32)) ∧
  (∀ (rs1 rs2 : Reg) (imm : BitVec 12) (s : State),
    s.pc = s.readReg rs1 + imm.signExtend 64 → (s.pc + 4).toNat % 8 = 4 →
    0x80000000 ≤ s.pc.toNat → s.pc.toNat + 8 ≤ 0x80100000 →
    ∃ t, exec (.sd rs1 rs2 imm) s = .next t ∧
      fetch reference t = .ok ((s.readReg rs2).extractLsb' 32 32)) ∧
  ∀ (cfg : Config) (rs1 rs2 : Reg) (imm : BitVec 12) (s : State) (addr : Word),
    addr = s.readReg rs1 + imm.signExtend 64 → cfg.misalignedData = .perform ∨ addr.toNat % 8 = 0 →
    cfg.memBase ≤ addr.toNat → addr.toNat + 8 ≤ cfg.memBase + cfg.memSize → (s.pc + 4).toNat % 4 = 0 →
    cfg.memBase ≤ (s.pc + 4).toNat → (s.pc + 4).toNat + 4 ≤ cfg.memBase + cfg.memSize →
    ∃ t w, execWith cfg (.sd rs1 rs2 imm) s = .next t ∧ fetch cfg t = .ok w ∧
      ∀ k < 4, w.extractLsb' (8 * k) 8 =
        if addr.toNat ≤ (s.pc + 4).toNat + k ∧ (s.pc + 4).toNat + k < addr.toNat + 8 then
          (s.readReg rs2).extractLsb' (8 * ((s.pc + 4).toNat + k - addr.toNat)) 8
        else s.mem.readByte ((s.pc + 4).toNat + k)

/-! ## The bus and the memory -/

/-- R40, R41: the bus load. The size check, then the bounds check on unbounded integers; then the bytes, little-endian
and zero-extended. -/
def Obligations.BusLoad : Prop :=
  ∀ (cfg : Config) (m : Memory) (addr : Word) (size : BitVec 8),
    (¬ (size = 8 ∨ size = 16 ∨ size = 32 ∨ size = 64) → memRead cfg m addr size = .error .invalidAccessSize) ∧
    ((size = 8 ∨ size = 16 ∨ size = 32 ∨ size = 64) →
      ¬ (cfg.memBase ≤ addr.toNat ∧ addr.toNat + size.toNat / 8 ≤ cfg.memBase + cfg.memSize) →
      memRead cfg m addr size = .error .outOfBounds) ∧
    ((size = 8 ∨ size = 16 ∨ size = 32 ∨ size = 64) → cfg.memBase ≤ addr.toNat →
      addr.toNat + size.toNat / 8 ≤ cfg.memBase + cfg.memSize →
      ∃ v, memRead cfg m addr size = .ok v ∧
        (∀ k < size.toNat / 8, v.extractLsb' (8 * k) 8 = m.readByte (addr.toNat + k)) ∧
        ∀ k, size.toNat ≤ k → v.getLsbD k = false)

/-- R42: the bus store. The same checks before any byte is written; then byte k of the value at addr + k, and no other
byte. -/
def Obligations.BusStore : Prop :=
  ∀ (cfg : Config) (m : Memory) (addr v : Word) (size : BitVec 8),
    (¬ (size = 8 ∨ size = 16 ∨ size = 32 ∨ size = 64) → memWrite cfg m addr size v = .error .invalidAccessSize) ∧
    ((size = 8 ∨ size = 16 ∨ size = 32 ∨ size = 64) →
      ¬ (cfg.memBase ≤ addr.toNat ∧ addr.toNat + size.toNat / 8 ≤ cfg.memBase + cfg.memSize) →
      memWrite cfg m addr size v = .error .outOfBounds) ∧
    ((size = 8 ∨ size = 16 ∨ size = 32 ∨ size = 64) → cfg.memBase ≤ addr.toNat →
      addr.toNat + size.toNat / 8 ≤ cfg.memBase + cfg.memSize →
      ∃ m', memWrite cfg m addr size v = .ok m' ∧
        (∀ k < size.toNat / 8, m'.readByte (addr.toNat + k) = v.extractLsb' (8 * k) 8) ∧
        Memory.SameOutside m m' addr.toNat (size.toNat / 8))

/-- R43 (the spec derives it): a 32-bit load at A after a 64-bit store of v at A returns v[31:0], and one at A + 4
returns v[63:32]. -/
def Obligations.MixedWidthSeesLittleEndianBytes : Prop :=
  ∀ (cfg : Config) (m m' : Memory) (addr v : Word), cfg.Valid → memWrite cfg m addr 64 v = .ok m' →
    memRead cfg m' addr 32 = .ok ((v.extractLsb' 0 32).setWidth 64) ∧
    memRead cfg m' (addr + 4) 32 = .ok ((v.extractLsb' 32 32).setWidth 64)

/-- A bus store keeps the memory's canonical form and lists nothing outside the region. -/
def Obligations.StoreKeepsCanonicalMemory : Prop :=
  ∀ (cfg : Config) (m m' : Memory) (addr v : Word) (size : BitVec 8),
    m.wf → m.inRegion cfg → memWrite cfg m addr size v = .ok m' → m'.wf ∧ m'.inRegion cfg

/-! ## Integer arithmetic -/

/-- R99: OP-IMM with funct3 = 000 selects ADDI, any other funct3 is Illegal. ADDI writes the exact sum modulo 2^64. -/
def Obligations.AddiResult : Prop :=
  (∀ (d : DivremOpcode) (w : InstrWord), opcodeOf w = 0b0010011#7 →
    decodeWord d w = if funct3Of w = 0b000#3 then some (.addi (rdOf w) (rs1Of w) (fieldI w)) else none) ∧
  ∀ (rd rs1 : Reg) (imm : BitVec 12) (s : State), ∃ t, exec (.addi rd rs1 imm) s = .next t ∧
    s.Retired t rd (BitVec.ofInt 64 ((s.readReg rs1).toInt + imm.toInt))

/-- R100: OP with funct3 = 000 and funct7 = 0000000 selects ADD, which writes the exact sum modulo 2^64. -/
def Obligations.AddResult : Prop :=
  (∀ (d : DivremOpcode) (w : InstrWord),
    opcodeOf w = 0b0110011#7 → funct3Of w = 0b000#3 → funct7Of w = 0b0000000#7 →
      decodeWord d w = some (.add (rdOf w) (rs1Of w) (rs2Of w))) ∧
  ∀ (rd rs1 rs2 : Reg) (s : State), ∃ t, exec (.add rd rs1 rs2) s = .next t ∧
    s.Retired t rd (BitVec.ofInt 64 ((s.readReg rs1).toInt + (s.readReg rs2).toInt))

/-- R101: OP with funct3 = 000 and funct7 = 0100000 selects SUB, which writes the exact difference modulo 2^64. -/
def Obligations.SubResult : Prop :=
  (∀ (d : DivremOpcode) (w : InstrWord),
    opcodeOf w = 0b0110011#7 → funct3Of w = 0b000#3 → funct7Of w = 0b0100000#7 →
      decodeWord d w = some (.sub (rdOf w) (rs1Of w) (rs2Of w))) ∧
  ∀ (rd rs1 rs2 : Reg) (s : State), ∃ t, exec (.sub rd rs1 rs2) s = .next t ∧
    s.Retired t rd (BitVec.ofInt 64 ((s.readReg rs1).toInt - (s.readReg rs2).toInt))

/-- R102: OP with funct3 = 000 and funct7 = 0000001 selects MUL, which writes the low 64 bits of the product, the same
whether the operands are read as signed or unsigned. -/
def Obligations.MulResult : Prop :=
  (∀ (d : DivremOpcode) (w : InstrWord),
    opcodeOf w = 0b0110011#7 → funct3Of w = 0b000#3 → funct7Of w = 0b0000001#7 →
      decodeWord d w = some (.mul (rdOf w) (rs1Of w) (rs2Of w))) ∧
  ∀ (rd rs1 rs2 : Reg) (s : State), ∃ t v, exec (.mul rd rs1 rs2) s = .next t ∧ s.Retired t rd v ∧
    v.toNat = ((s.readReg rs1).toNat * (s.readReg rs2).toNat) % 2 ^ 64 ∧
    v = BitVec.ofInt 64 ((s.readReg rs1).toInt * (s.readReg rs2).toInt)

/-- R103: OP with funct3 = 011 and funct7 = 0000000 selects SLTU, which writes 1 when x[rs1] is below x[rs2] as
unsigned integers, and 0 otherwise. -/
def Obligations.SltuResult : Prop :=
  (∀ (d : DivremOpcode) (w : InstrWord),
    opcodeOf w = 0b0110011#7 → funct3Of w = 0b011#3 → funct7Of w = 0b0000000#7 →
      decodeWord d w = some (.sltu (rdOf w) (rs1Of w) (rs2Of w))) ∧
  ∀ (rd rs1 rs2 : Reg) (s : State), ∃ t, exec (.sltu rd rs1 rs2) s = .next t ∧
    s.Retired t rd (if (s.readReg rs1).toNat < (s.readReg rs2).toNat then 1 else 0)

/-- R104 (D2, D7; logs 4 and 6): DIVU writes the unsigned quotient, and DIVU_ZERO of the dividend for a zero divisor,
under every configuration and on this hardware; it completes on all operands. -/
def Obligations.DivuResult : Prop :=
  ∀ (rd rs1 rs2 : Reg) (s : State),
    (∃ t v, exec (.divu rd rs1 rs2) s = .next t ∧ s.Retired t rd v ∧
      (s.readReg rs2 = 0 → v = reference.divuZero (s.readReg rs1)) ∧
      (s.readReg rs2 ≠ 0 → v.toNat = (s.readReg rs1).toNat / (s.readReg rs2).toNat)) ∧
    ∀ cfg : Config, ∃ t v, execWith cfg (.divu rd rs1 rs2) s = .next t ∧ s.Retired t rd v ∧
      (s.readReg rs2 = 0 → v = cfg.divuZero (s.readReg rs1)) ∧
      (s.readReg rs2 ≠ 0 → v.toNat = (s.readReg rs1).toNat / (s.readReg rs2).toNat)

/-- R105 (D2, D7; logs 4 and 6): REMU writes the unsigned remainder, and REMU_ZERO of the dividend for a zero divisor,
under every configuration and on this hardware; it completes on all operands. -/
def Obligations.RemuResult : Prop :=
  ∀ (rd rs1 rs2 : Reg) (s : State),
    (∃ t v, exec (.remu rd rs1 rs2) s = .next t ∧ s.Retired t rd v ∧
      (s.readReg rs2 = 0 → v = reference.remuZero (s.readReg rs1)) ∧
      (s.readReg rs2 ≠ 0 → v.toNat = (s.readReg rs1).toNat % (s.readReg rs2).toNat)) ∧
    ∀ cfg : Config, ∃ t v, execWith cfg (.remu rd rs1 rs2) s = .next t ∧ s.Retired t rd v ∧
      (s.readReg rs2 = 0 → v = cfg.remuZero (s.readReg rs1)) ∧
      (s.readReg rs2 ≠ 0 → v.toNat = (s.readReg rs1).toNat % (s.readReg rs2).toNat)

/-- The model's choice (log 6, the spec's defaults D7): DIVU by zero gives all ones, REMU by zero the dividend, and so
quotient · divisor + remainder is the dividend modulo 2^64 for every divisor. -/
def Obligations.ZeroDivisorDefaults : Prop :=
  (∀ a : Word, divUnsigned reference a 0 = 0xFFFFFFFFFFFFFFFF#64 ∧ remUnsigned reference a 0 = a) ∧
  ∀ a b : Word, divUnsigned reference a b * b + remUnsigned reference a b = a

/-! ## SYSTEM -/

/-- R106 (the spec's decision D4; log 19): every SYSTEM word with funct3 = 000 is one of the three no-ops, ECALL and
EBREAK have their words, and each of them only advances the pc. -/
def Obligations.SystemNoOps : Prop :=
  (∀ (d : DivremOpcode) (w : InstrWord), opcodeOf w = 0b1110011#7 → funct3Of w = 0b000#3 →
    decodeWord d w = some .ecall ∨ decodeWord d w = some .ebreak ∨
    decodeWord d w = some (.systemNop (rdOf w) (rs1Of w) (fieldI w))) ∧
  (∀ d : DivremOpcode, decodeWord d 0x00000073#32 = some .ecall ∧ decodeWord d 0x00100073#32 = some .ebreak) ∧
  ∀ (s : State) (rd rs1 : Reg) (imm : BitVec 12), ∀ i ∈ [Instr.ecall, Instr.ebreak, Instr.systemNop rd rs1 imm],
    ∃ t, exec i s = .next t ∧ t.regs = s.regs ∧ t.pc = s.pc + 4 ∧ t.mem = s.mem ∧ s.SameRun t

/-- R108 (the spec's decision D5): a SYSTEM word with funct3 other than 000 raises IllegalInstruction. The pc at the
halt is the spec's decision D12 (R84, log 21), nothing else is written (R116), and the record's fields are the spec's
format D13 (R117, log 14). -/
def Obligations.OtherSystemWordsAreIllegal : Prop :=
  ∀ (s : State) (w : InstrWord), s.run = .running → fetch reference s = .ok w →
    opcodeOf w = 0b1110011#7 → funct3Of w ≠ 0b000#3 →
    ∃ t, step s = .next t ∧
      s.zeroX0.HaltedWith t ⟨.illegalInstruction, .decode, s.pc, some w, none, none⟩ (s.pc + 4)

/-! ## Reset and loading -/

/-- R33, R131 (D15; INIT_GPR's value is log 3, and none is used here): what reset() leaves, from either run state and
under every configuration; memory is not written. -/
def Obligations.ResetLeavesTheTable : Prop :=
  ∀ (cfg : Config) (s : State),
    (s.resetMachine cfg).regs[0] = 0 ∧
    (s.resetMachine cfg).readReg 2 = BitVec.ofNat 64 (cfg.memBase + cfg.memSize) ∧
    (∀ r : Reg, r ≠ 0 → r ≠ 2 → (s.resetMachine cfg).readReg r = cfg.initGpr r) ∧
    (s.resetMachine cfg).pc = BitVec.ofNat 64 cfg.memBase ∧
    (s.resetMachine cfg).run = .running ∧ (s.resetMachine cfg).haltRecord = none ∧
    (s.resetMachine cfg).mem = s.mem

/-- R129 (D16; log 8): an image that fits is at B, byte by byte, after boot, and every other byte is 0; one that does
not is refused. -/
def Obligations.BootLoadsImage : Prop :=
  ∀ (cfg : Config) (image : List Byte),
    (cfg.memSize < image.length → boot cfg image = none) ∧
    (image.length ≤ cfg.memSize → ∃ s, boot cfg image = some s ∧
      (∀ k, (h : k < image.length) → s.mem.readByte (cfg.memBase + k) = image[k]) ∧
      ∀ a, ¬ (cfg.memBase ≤ a ∧ a < cfg.memBase + image.length) → s.mem.readByte a = 0)

/-! ## The assembler convention -/

/-- R75 (D26; log 17): the two-word expansion of `li` leaves the immediate in rd, below the range the note names. -/
def Obligations.LiExpansionLoadsImmediate : Prop :=
  ∀ (rd : Reg) (imm : Int) (s : State), rd ≠ 0 → -2147483648 ≤ imm → imm < 0x7FFFF800 →
    ¬ (-2048 ≤ imm ∧ imm ≤ 2047) →
    ∃ h l t u, Pseudo.expand (.li rd imm) = some [.lui rd h, .addi rd rd l] ∧
      exec (.lui rd h) s = .next t ∧ exec (.addi rd rd l) t = .next u ∧ u.readReg rd = BitVec.ofInt 64 imm
end

