-- ==== Sys2Proof/Laws/Memory.lean ====
section
/-!
SUPPORT. Read after write, what a write leaves alone, the canonical form, and the bytes of a wide access.
-/
namespace Sys2Proof.Machine

theorem Memory.readByte_erase (m : Memory) (x y : Nat) :
    (m.erase x).readByte y = if y = x then unlistedByte else m.readByte y := by
  induction m with
  | nil => simp [Memory.erase, Memory.readByte]
  | cons c rest ih =>
    obtain ⟨a, b⟩ := c
    by_cases h : a = x
    · subst h
      simp only [Memory.erase, if_pos, ih, Memory.readByte]
      by_cases e : y = a
      · simp [e]
      · simp [e, Ne.symm e]
    · simp only [Memory.erase, if_neg h, Memory.readByte, ih]
      by_cases e : a = y
      · subst e; simp [h]
      · simp [e]

theorem Memory.readByte_insert {m : Memory} {x : Nat} (v : Byte) (hx : ∀ c ∈ m, c.1 ≠ x) (y : Nat) :
    (m.insert x v).readByte y = if y = x then v else m.readByte y := by
  induction m with
  | nil => simp [Memory.insert, Memory.readByte, eq_comm]
  | cons c rest ih =>
    obtain ⟨a, b⟩ := c
    have ha : a ≠ x := hx (a, b) (by simp)
    have ih := ih fun c hc => hx c (by simp [hc])
    by_cases h : x < a
    · simp [Memory.insert, h, Memory.readByte, eq_comm]
    · simp only [Memory.insert, if_neg h, Memory.readByte, ih]
      by_cases e : a = y
      · subst e; simp [ha]
      · simp [e]

theorem Memory.mem_erase {m : Memory} {x : Nat} {c : Host.Cell} :
    c ∈ m.erase x ↔ c ∈ m ∧ c.1 ≠ x := by
  induction m with
  | nil => simp [Memory.erase]
  | cons d rest ih =>
    obtain ⟨a, b⟩ := d
    by_cases h : a = x
    · simp only [Memory.erase, if_pos h, ih, List.mem_cons]
      constructor
      · rintro ⟨h1, h2⟩; exact ⟨.inr h1, h2⟩
      · rintro ⟨rfl | h1, h2⟩
        · exact absurd h h2
        · exact ⟨h1, h2⟩
    · simp only [Memory.erase, if_neg h, List.mem_cons, ih]
      constructor
      · rintro (rfl | ⟨h1, h2⟩)
        · exact ⟨.inl rfl, h⟩
        · exact ⟨.inr h1, h2⟩
      · rintro ⟨rfl | h1, h2⟩
        · exact .inl rfl
        · exact .inr ⟨h1, h2⟩

theorem Memory.mem_insert {m : Memory} {x : Nat} {v : Byte} {c : Host.Cell} :
    c ∈ m.insert x v ↔ c = (x, v) ∨ c ∈ m := by
  induction m with
  | nil => simp [Memory.insert]
  | cons d rest ih =>
    obtain ⟨a, b⟩ := d
    by_cases h : x < a
    · simp [Memory.insert, h]
    · simp only [Memory.insert, if_neg h, List.mem_cons, ih]
      tauto

/-- A byte reads as what was last written there, and every other byte as before. -/
theorem Memory.readByte_writeByte (m : Memory) (x y : Nat) (v : Byte) :
    (m.writeByte x v).readByte y = if y = x then v else m.readByte y := by
  unfold Memory.writeByte
  split
  · rename_i h; rw [Memory.readByte_erase, h]
  · rw [Memory.readByte_insert v (fun c hc => (Memory.mem_erase.mp hc).2), Memory.readByte_erase]
    by_cases e : y = x <;> simp [e]

theorem Memory.erase_pairwise {m : Memory} (x : Nat) (h : m.Pairwise (fun c d => c.1 < d.1)) :
    (m.erase x).Pairwise (fun c d => c.1 < d.1) := by
  induction m with
  | nil => simp [Memory.erase]
  | cons c rest ih =>
    obtain ⟨a, b⟩ := c
    rw [List.pairwise_cons] at h
    by_cases e : a = x
    · simpa [Memory.erase, e] using ih h.2
    · simp only [Memory.erase, if_neg e, List.pairwise_cons]
      exact ⟨fun d hd => h.1 d (Memory.mem_erase.mp hd).1, ih h.2⟩

theorem Memory.insert_pairwise {m : Memory} {x : Nat} (v : Byte) (hx : ∀ c ∈ m, c.1 ≠ x)
    (h : m.Pairwise (fun c d => c.1 < d.1)) : (m.insert x v).Pairwise (fun c d => c.1 < d.1) := by
  induction m with
  | nil => simp [Memory.insert]
  | cons c rest ih =>
    obtain ⟨a, b⟩ := c
    have ha : a ≠ x := hx (a, b) (by simp)
    have ih := ih (fun c hc => hx c (by simp [hc])) (List.pairwise_cons.mp h).2
    by_cases e : x < a
    · simp only [Memory.insert, if_pos e]
      refine List.pairwise_cons.mpr ⟨fun d hd => ?_, h⟩
      rcases List.mem_cons.mp hd with rfl | hd
      · exact e
      · exact Nat.lt_trans e ((List.pairwise_cons.mp h).1 d hd)
    · simp only [Memory.insert, if_neg e]
      refine List.pairwise_cons.mpr ⟨fun d hd => ?_, ih⟩
      rcases Memory.mem_insert.mp hd with rfl | hd
      · simp only; omega
      · exact (List.pairwise_cons.mp h).1 d hd

/-- A byte write keeps the canonical form. -/
theorem Memory.writeByte_wf {m : Memory} (x : Nat) (v : Byte) (h : m.wf) : (m.writeByte x v).wf := by
  unfold Memory.writeByte
  split
  · exact ⟨Memory.erase_pairwise x h.1, fun c hc => h.2 c (Memory.mem_erase.mp hc).1⟩
  · rename_i hv
    refine ⟨Memory.insert_pairwise v (fun c hc => (Memory.mem_erase.mp hc).2) (Memory.erase_pairwise x h.1), ?_⟩
    intro c hc
    rcases Memory.mem_insert.mp hc with rfl | hc
    · exact hv
    · exact h.2 c (Memory.mem_erase.mp hc).1

/-- A byte write in the region lists nothing outside it. -/
theorem Memory.writeByte_inRegion {cfg : Config} {m : Memory} {x : Nat} (v : Byte) (h : m.inRegion cfg)
    (hx : cfg.memBase ≤ x ∧ x < cfg.memBase + cfg.memSize) : (m.writeByte x v).inRegion cfg := by
  intro c hc
  unfold Memory.writeByte at hc
  split at hc
  · exact h c (Memory.mem_erase.mp hc).1
  · rcases Memory.mem_insert.mp hc with rfl | hc
    · exact hx
    · exact h c (Memory.mem_erase.mp hc).1

/-- The bytes after a little-endian write: byte k of the value at a + k, every other byte as before. -/
theorem Memory.readByte_writeLE (m : Memory) (a : Nat) (v : Word) (n x : Nat) :
    (m.writeLE a v n).readByte x = if a ≤ x ∧ x < a + n then byteOf v (x - a) else m.readByte x := by
  induction n with
  | zero => simp [Memory.writeLE]
  | succ n ih =>
    rw [Memory.writeLE, Memory.readByte_writeByte, ih]
    by_cases e : x = a + n
    · subst e; simp
    · rw [if_neg e]
      by_cases h : a ≤ x ∧ x < a + n
      · rw [if_pos h, if_pos (by omega)]
      · rw [if_neg h, if_neg (by omega)]

theorem Memory.writeLE_wf {m : Memory} (a : Nat) (v : Word) (n : Nat) (h : m.wf) : (m.writeLE a v n).wf := by
  induction n with
  | zero => exact h
  | succ n ih => exact Memory.writeByte_wf _ _ ih

theorem Memory.writeLE_inRegion {cfg : Config} {m : Memory} {a : Nat} (v : Word) {n : Nat} (h : m.inRegion cfg)
    (ha : cfg.memBase ≤ a) (hn : a + n ≤ cfg.memBase + cfg.memSize) : (m.writeLE a v n).inRegion cfg := by
  induction n with
  | zero => exact h
  | succ n ih => exact Memory.writeByte_inRegion _ (ih (by omega)) (by omega)

theorem Memory.writeBytes_wf {m : Memory} (a : Nat) (bytes : List Byte) (h : m.wf) : (m.writeBytes a bytes).wf := by
  induction bytes generalizing m a with
  | nil => exact h
  | cons b rest ih => exact ih _ (Memory.writeByte_wf _ _ h)

theorem Memory.writeBytes_inRegion {cfg : Config} {m : Memory} {a : Nat} (bytes : List Byte) (h : m.inRegion cfg)
    (ha : cfg.memBase ≤ a) (hn : a + bytes.length ≤ cfg.memBase + cfg.memSize) :
    (m.writeBytes a bytes).inRegion cfg := by
  induction bytes generalizing m a with
  | nil => exact h
  | cons b rest ih =>
    simp only [List.length_cons] at hn
    exact ih (Memory.writeByte_inRegion _ h (by omega)) (by omega) (by omega)

/-- The bytes after the loader's writes: the image's byte, or what was there before. -/
theorem Memory.readByte_writeBytes (m : Memory) (a : Nat) (bytes : List Byte) (x : Nat) :
    (m.writeBytes a bytes).readByte x =
      if h : a ≤ x ∧ x < a + bytes.length then bytes[x - a]'(by omega) else m.readByte x := by
  induction bytes generalizing m a with
  | nil => simp [Memory.writeBytes]
  | cons b rest ih =>
    rw [Memory.writeBytes, ih, Memory.readByte_writeByte]
    by_cases e : x = a
    · subst e; simp
    · by_cases h : a + 1 ≤ x ∧ x < a + 1 + rest.length
      · have h' : a ≤ x ∧ x < a + (b :: rest).length := by simp only [List.length_cons]; omega
        rw [dif_pos h, dif_pos h']
        have : x - a = (x - (a + 1)) + 1 := by omega
        simp [this]
      · have h' : ¬ (a ≤ x ∧ x < a + (b :: rest).length) := by simp only [List.length_cons]; omega
        rw [dif_neg h, dif_neg h', if_neg e]

/-- Each bit of a little-endian read is the bit of its byte. -/
theorem Memory.getLsbD_readLE (m : Memory) (a n i : Nat) :
    (m.readLE a n).getLsbD i = (decide (i < 8 * n) && decide (i < 64) && (m.readByte (a + i / 8)).getLsbD (i % 8)) := by
  induction n with
  | zero => simp [Memory.readLE]
  | succ n ih =>
    rw [Memory.readLE, BitVec.getLsbD_or, ih, BitVec.getLsbD_shiftLeft, BitVec.getLsbD_setWidth]
    by_cases h64 : i < 64
    · by_cases h : i < 8 * n
      · have h1 : i < 8 * (n + 1) := by omega
        simp [h64, h, h1]
      · by_cases h1 : i < 8 * (n + 1)
        · have e1 : i / 8 = n := by omega
          have e2 : i - 8 * n = i % 8 := by omega
          have e3 : i % 8 < 64 := by omega
          simp [h64, h, h1, e1, e2, e3]
        · have e2 : 8 ≤ i - 8 * n := by omega
          simp [h64, h, h1]
          intro _
          exact BitVec.getLsbD_of_ge _ _ e2
    · simp [h64]

/-- Byte k of a little-endian read is the byte at a + k. -/
theorem Memory.byteOf_readLE (m : Memory) (a : Nat) {n k : Nat} (hk : k < n) (hn : n ≤ 8) :
    byteOf (m.readLE a n) k = m.readByte (a + k) := by
  apply BitVec.eq_of_getLsbD_eq
  intro i hi
  have e1 : (8 * k + i) / 8 = k := by omega
  have e2 : (8 * k + i) % 8 = i := by omega
  have h1 : 8 * k + i < 8 * n := by omega
  have h2 : 8 * k + i < 64 := by omega
  rw [byteOf, BitVec.getLsbD_extractLsb', Memory.getLsbD_readLE]
  simp [hi, e1, e2, h1, h2]

/-- A read whose bytes are those of v is v. -/
theorem Memory.readLE_eq_of_bytes {m : Memory} {a : Nat} {v : Word}
    (h : ∀ k < 8, m.readByte (a + k) = byteOf v k) : m.readLE a 8 = v := by
  apply BitVec.eq_of_getLsbD_eq
  intro i hi
  rw [Memory.getLsbD_readLE, h _ (by omega), byteOf, BitVec.getLsbD_extractLsb']
  have e : 8 * (i / 8) + i % 8 = i := by omega
  have h8 : i % 8 < 8 := by omega
  have h1 : i < 8 * 8 := by omega
  simp [e, h8, hi]

/-- A 32-bit read is its four bytes, the lowest address in the low bits. -/
theorem Memory.extract_readLE_four (m : Memory) (a : Nat) :
    (m.readLE a 4).extractLsb' 0 32 =
      m.readByte (a + 3) ++ m.readByte (a + 2) ++ m.readByte (a + 1) ++ m.readByte a := by
  apply BitVec.eq_of_getLsbD_eq
  intro i hi
  rw [BitVec.getLsbD_extractLsb', Memory.getLsbD_readLE, Nat.zero_add]
  simp only [BitVec.getLsbD_append]
  have h64 : i < 64 := by omega
  by_cases h0 : i < 8
  · have e1 : i / 8 = 0 := by omega
    have e2 : i % 8 = i := by omega
    simp [hi, h0, h64, e1, e2]
  · by_cases h1 : i < 16
    · have e1 : i / 8 = 1 := by omega
      have e2 : i % 8 = i - 8 := by omega
      have h' : i - 8 < 8 := by omega
      simp [hi, h0, h', h64, e1, e2]
    · by_cases h2 : i < 24
      · have e1 : i / 8 = 2 := by omega
        have e2 : i % 8 = i - 8 - 8 := by omega
        have h' : ¬ i - 8 < 8 := by omega
        have h'' : i - 8 - 8 < 8 := by omega
        simp [hi, h0, h', h'', h64, e1, e2]
      · have e1 : i / 8 = 3 := by omega
        have e2 : i % 8 = i - 8 - 8 - 8 := by omega
        have h' : ¬ i - 8 < 8 := by omega
        have h'' : ¬ i - 8 - 8 < 8 := by omega
        simp [hi, h0, h', h'', h64, e1, e2]

end Sys2Proof.Machine
end

