-- ==== Sys2Proof/Laws/Bus.lean ====
section
/-!
SUPPORT. What the bus primitives and the data accesses answer (spec/20_memory.md R41, R42; spec/43_load_store.md R94).
-/
namespace Sys2Proof.Machine

variable {cfg : Config} {m m' : Memory} {addr v : Word} {size : BitVec 8} {c : Condition}

theorem memRead_invalid (h : ¬ validSize size) : memRead cfg m addr size = .error .invalidAccessSize := by
  simp [memRead, h]

theorem memRead_outside (h : validSize size) (hb : ¬ InBounds cfg addr (size.toNat / 8)) :
    memRead cfg m addr size = .error .outOfBounds := by
  rw [memRead, if_neg (not_not_intro h), if_pos hb]

theorem memRead_inside (h : validSize size) (hb : InBounds cfg addr (size.toNat / 8)) :
    memRead cfg m addr size = .ok (m.readLE addr.toNat (size.toNat / 8)) := by
  rw [memRead, if_neg (not_not_intro h), if_neg (not_not_intro hb)]

theorem memWrite_invalid (h : ¬ validSize size) : memWrite cfg m addr size v = .error .invalidAccessSize := by
  simp [memWrite, h]

theorem memWrite_outside (h : validSize size) (hb : ¬ InBounds cfg addr (size.toNat / 8)) :
    memWrite cfg m addr size v = .error .outOfBounds := by
  rw [memWrite, if_neg (not_not_intro h), if_pos hb]

theorem memWrite_inside (h : validSize size) (hb : InBounds cfg addr (size.toNat / 8)) :
    memWrite cfg m addr size v = .ok (m.writeLE addr.toNat v (size.toNat / 8)) := by
  rw [memWrite, if_neg (not_not_intro h), if_neg (not_not_intro hb)]

/-- A bus store that answers a memory was in bounds and wrote the value's bytes. -/
theorem memWrite_ok (h : memWrite cfg m addr size v = .ok m') :
    validSize size ∧ InBounds cfg addr (size.toNat / 8) ∧ m' = m.writeLE addr.toNat v (size.toNat / 8) := by
  by_cases hs : validSize size
  · by_cases hb : InBounds cfg addr (size.toNat / 8)
    · rw [memWrite_inside hs hb] at h
      exact ⟨hs, hb, (Except.ok.inj h).symm⟩
    · rw [memWrite_outside hs hb] at h; cases h
  · rw [memWrite_invalid hs] at h; cases h

/-- A load of an accepted size that raises a condition raises OutOfBounds. -/
theorem memRead_error (hs : validSize size) (h : memRead cfg m addr size = .error c) :
    c = .outOfBounds ∧ ¬ InBounds cfg addr (size.toNat / 8) := by
  by_cases hb : InBounds cfg addr (size.toNat / 8)
  · rw [memRead_inside hs hb] at h; cases h
  · rw [memRead_outside hs hb] at h
    exact ⟨(Except.error.inj h).symm, hb⟩

theorem memWrite_error (hs : validSize size) (h : memWrite cfg m addr size v = .error c) :
    c = .outOfBounds ∧ ¬ InBounds cfg addr (size.toNat / 8) := by
  by_cases hb : InBounds cfg addr (size.toNat / 8)
  · rw [memWrite_inside hs hb] at h; cases h
  · rw [memWrite_outside hs hb] at h
    exact ⟨(Except.error.inj h).symm, hb⟩

/-- The conditions of a data access: AddressMisaligned under MISALIGNED_DATA = halt, else OutOfBounds. -/
theorem dataRead_error (h : dataRead cfg m addr = .error c) :
    c = .addressMisaligned ∧ MisalignedHalt cfg addr ∨
      c = .outOfBounds ∧ ¬ MisalignedHalt cfg addr ∧ ¬ InBounds cfg addr 8 := by
  unfold dataRead at h
  split at h
  · rename_i hm; exact .inl ⟨(Except.error.inj h).symm, hm⟩
  · rename_i hm
    obtain ⟨hc, hb⟩ := memRead_error (by decide) h
    exact .inr ⟨hc, hm, hb⟩

theorem dataWrite_error (h : dataWrite cfg m addr v = .error c) :
    c = .addressMisaligned ∧ MisalignedHalt cfg addr ∨
      c = .outOfBounds ∧ ¬ MisalignedHalt cfg addr ∧ ¬ InBounds cfg addr 8 := by
  unfold dataWrite at h
  split at h
  · rename_i hm; exact .inl ⟨(Except.error.inj h).symm, hm⟩
  · rename_i hm
    obtain ⟨hc, hb⟩ := memWrite_error (by decide) h
    exact .inr ⟨hc, hm, hb⟩

theorem dataRead_misaligned (h : MisalignedHalt cfg addr) : dataRead cfg m addr = .error .addressMisaligned :=
  if_pos h

theorem dataWrite_misaligned (h : MisalignedHalt cfg addr) : dataWrite cfg m addr v = .error .addressMisaligned :=
  if_pos h

theorem dataRead_outside (h : ¬ MisalignedHalt cfg addr) (hb : ¬ InBounds cfg addr 8) :
    dataRead cfg m addr = .error .outOfBounds := by
  rw [dataRead, if_neg h]; exact memRead_outside (by decide) hb

theorem dataWrite_outside (h : ¬ MisalignedHalt cfg addr) (hb : ¬ InBounds cfg addr 8) :
    dataWrite cfg m addr v = .error .outOfBounds := by
  rw [dataWrite, if_neg h]; exact memWrite_outside (by decide) hb

theorem dataRead_inside (h : ¬ MisalignedHalt cfg addr) (hb : InBounds cfg addr 8) :
    dataRead cfg m addr = .ok (m.readLE addr.toNat 8) := by
  rw [dataRead, if_neg h]; exact memRead_inside (by decide) hb

theorem dataWrite_inside (h : ¬ MisalignedHalt cfg addr) (hb : InBounds cfg addr 8) :
    dataWrite cfg m addr v = .ok (m.writeLE addr.toNat v 8) := by
  rw [dataWrite, if_neg h]; exact memWrite_inside (by decide) hb

/-- A data store that answers a memory was in bounds and wrote the eight bytes. -/
theorem dataWrite_ok (h : dataWrite cfg m addr v = .ok m') :
    InBounds cfg addr 8 ∧ m' = m.writeLE addr.toNat v 8 := by
  unfold dataWrite at h
  split at h
  · cases h
  · exact (memWrite_ok h).2

/-- The fetch's three answers (spec/40_fetch_execute.md R79). -/
theorem fetch_misaligned {s : State} (h : s.pc.toNat % 4 ≠ 0) :
    fetch cfg s = .error (fetchRecord .addressMisaligned s.pc) := if_pos h

theorem fetch_outside {s : State} (h : s.pc.toNat % 4 = 0) (hb : ¬ InBounds cfg s.pc 4) :
    fetch cfg s = .error (fetchRecord .outOfBounds s.pc) := by
  have e : memRead cfg s.mem s.pc 32#8 = .error .outOfBounds := memRead_outside (by decide) hb
  rw [fetch, if_neg (not_not_intro h), e]

theorem fetch_inside {s : State} (h : s.pc.toNat % 4 = 0) (hb : InBounds cfg s.pc 4) :
    fetch cfg s = .ok ((s.mem.readLE s.pc.toNat 4).extractLsb' 0 32) := by
  have e : memRead cfg s.mem s.pc 32#8 = .ok (s.mem.readLE s.pc.toNat 4) := memRead_inside (by decide) hb
  rw [fetch, if_neg (not_not_intro h), e]

/-- A fetch condition is AddressMisaligned or OutOfBounds of kind fetch. -/
theorem fetch_error {s : State} {r : HaltRecord} (h : fetch cfg s = .error r) :
    (s.pc.toNat % 4 ≠ 0 ∧ r = fetchRecord .addressMisaligned s.pc) ∨
      (s.pc.toNat % 4 = 0 ∧ ¬ InBounds cfg s.pc 4 ∧ r = fetchRecord .outOfBounds s.pc) := by
  by_cases ha : s.pc.toNat % 4 = 0
  · by_cases hb : InBounds cfg s.pc 4
    · rw [fetch_inside ha hb] at h; cases h
    · rw [fetch_outside ha hb] at h
      exact .inr ⟨ha, hb, (Except.error.inj h).symm⟩
  · rw [fetch_misaligned ha] at h
    exact .inl ⟨ha, (Except.error.inj h).symm⟩

theorem fetch_ok {s : State} {w : InstrWord} (h : fetch cfg s = .ok w) :
    s.pc.toNat % 4 = 0 ∧ InBounds cfg s.pc 4 ∧ w = (s.mem.readLE s.pc.toNat 4).extractLsb' 0 32 := by
  by_cases ha : s.pc.toNat % 4 = 0
  · by_cases hb : InBounds cfg s.pc 4
    · rw [fetch_inside ha hb] at h
      exact ⟨ha, hb, (Except.ok.inj h).symm⟩
    · rw [fetch_outside ha hb] at h; cases h
  · rw [fetch_misaligned ha] at h; cases h

/-- Setting x0 to 0 changes no fetch. -/
@[simp] theorem fetch_zeroX0 (cfg : Config) (s : State) : fetch cfg s.zeroX0 = fetch cfg s := rfl

end Sys2Proof.Machine
end

