-- ==== Sys2Proof/Laws/Decode.lean ====
section
/-!
SUPPORT. The fields of an encoded word and the encoding of a word's fields, one lemma per format of
spec/30_encoding.md R57.
-/
namespace Sys2Proof

theorem extract_eq_of_bits {w : InstrWord} {n len : Nat} {x : BitVec len}
    (h : ∀ i < len, w.getLsbD (n + i) = x.getLsbD i) : w.extractLsb' n len = x := by
  apply BitVec.eq_of_getLsbD_eq
  intro i hi
  simpa [BitVec.getLsbD_extractLsb', hi] using h i hi

theorem toFin_of_extract {w : InstrWord} {n : Nat} {r : Reg} (h : w.extractLsb' n 5 = regField r) :
    (w.extractLsb' n 5).toFin = r := by
  rw [h]; rfl

@[simp] theorem divremOp_op32 : divremOp .op32 = opOp32 := rfl
@[simp] theorem divremOp_op : divremOp .op = opOp := rfl

@[simp] theorem regField_toFin (x : BitVec 5) : regField x.toFin = x := rfl

theorem encodeR_fields (f7 : BitVec 7) (rs2 rs1 : Reg) (f3 : BitVec 3) (rd : Reg) (op : BitVec 7) :
    opcodeOf (encodeR f7 rs2 rs1 f3 rd op) = op ∧ funct3Of (encodeR f7 rs2 rs1 f3 rd op) = f3 ∧
    funct7Of (encodeR f7 rs2 rs1 f3 rd op) = f7 ∧ rdOf (encodeR f7 rs2 rs1 f3 rd op) = rd ∧
    rs1Of (encodeR f7 rs2 rs1 f3 rd op) = rs1 ∧ rs2Of (encodeR f7 rs2 rs1 f3 rd op) = rs2 := by
  refine ⟨extract_eq_of_bits ?_, extract_eq_of_bits ?_, extract_eq_of_bits ?_,
    toFin_of_extract (extract_eq_of_bits ?_), toFin_of_extract (extract_eq_of_bits ?_),
    toFin_of_extract (extract_eq_of_bits ?_)⟩ <;>
  · intro i hi
    simp only [encodeR, BitVec.getLsbD_append]
    split_ifs <;> first | omega | (congr 1; omega)

theorem encodeI_fields (imm : BitVec 12) (rs1 : Reg) (f3 : BitVec 3) (rd : Reg) (op : BitVec 7) :
    opcodeOf (encodeI imm rs1 f3 rd op) = op ∧ funct3Of (encodeI imm rs1 f3 rd op) = f3 ∧
    fieldI (encodeI imm rs1 f3 rd op) = imm ∧ rdOf (encodeI imm rs1 f3 rd op) = rd ∧
    rs1Of (encodeI imm rs1 f3 rd op) = rs1 := by
  refine ⟨extract_eq_of_bits ?_, extract_eq_of_bits ?_, extract_eq_of_bits ?_,
    toFin_of_extract (extract_eq_of_bits ?_), toFin_of_extract (extract_eq_of_bits ?_)⟩ <;>
  · intro i hi
    simp only [encodeI, BitVec.getLsbD_append]
    split_ifs <;> first | omega | (congr 1; omega)

theorem encodeS_fields (imm : BitVec 12) (rs2 rs1 : Reg) (f3 : BitVec 3) (op : BitVec 7) :
    opcodeOf (encodeS imm rs2 rs1 f3 op) = op ∧ funct3Of (encodeS imm rs2 rs1 f3 op) = f3 ∧
    rs1Of (encodeS imm rs2 rs1 f3 op) = rs1 ∧ rs2Of (encodeS imm rs2 rs1 f3 op) = rs2 ∧
    fieldS (encodeS imm rs2 rs1 f3 op) = imm := by
  refine ⟨extract_eq_of_bits ?_, extract_eq_of_bits ?_,
    toFin_of_extract (extract_eq_of_bits ?_), toFin_of_extract (extract_eq_of_bits ?_),
    BitVec.eq_of_getLsbD_eq ?_⟩
  on_goal 5 =>
    intro i hi
    simp only [fieldS, encodeS, BitVec.getLsbD_append, BitVec.getLsbD_extractLsb']
    grind
  all_goals
    intro i hi
    simp only [encodeS, BitVec.getLsbD_append]
    split_ifs <;> first | omega | (congr 1; omega)

theorem encodeB_fields (offset : BitVec 13) (rs2 rs1 : Reg) (f3 : BitVec 3) (op : BitVec 7) :
    opcodeOf (encodeB offset rs2 rs1 f3 op) = op ∧ funct3Of (encodeB offset rs2 rs1 f3 op) = f3 ∧
    rs1Of (encodeB offset rs2 rs1 f3 op) = rs1 ∧ rs2Of (encodeB offset rs2 rs1 f3 op) = rs2 ∧
    (branchOffsetEven offset = true → fieldB (encodeB offset rs2 rs1 f3 op) = offset) := by
  refine ⟨extract_eq_of_bits ?_, extract_eq_of_bits ?_,
    toFin_of_extract (extract_eq_of_bits ?_), toFin_of_extract (extract_eq_of_bits ?_), ?_⟩
  on_goal 5 =>
    intro he
    have he : offset.getLsbD 0 = false := by simpa [branchOffsetEven] using he
    apply BitVec.eq_of_getLsbD_eq
    intro i hi
    simp only [fieldB, encodeB, BitVec.getLsbD_append, BitVec.getLsbD_extractLsb']
    grind
  all_goals
    intro i hi
    simp only [encodeB, BitVec.getLsbD_append]
    split_ifs <;> first | omega | (congr 1; omega)

theorem encodeU_fields (imm : BitVec 20) (rd : Reg) (op : BitVec 7) :
    opcodeOf (encodeU imm rd op) = op ∧ rdOf (encodeU imm rd op) = rd ∧ fieldU (encodeU imm rd op) = imm := by
  refine ⟨extract_eq_of_bits ?_, toFin_of_extract (extract_eq_of_bits ?_), extract_eq_of_bits ?_⟩ <;>
  · intro i hi
    simp only [encodeU, BitVec.getLsbD_append]
    split_ifs <;> first | omega | (congr 1; omega)

theorem encodeJ_fields (offset : BitVec 21) (rd : Reg) (op : BitVec 7) :
    opcodeOf (encodeJ offset rd op) = op ∧ rdOf (encodeJ offset rd op) = rd ∧
    (jumpOffsetEven offset = true → fieldJ (encodeJ offset rd op) = offset) := by
  refine ⟨extract_eq_of_bits ?_, toFin_of_extract (extract_eq_of_bits ?_), ?_⟩
  on_goal 3 =>
    intro he
    have he : offset.getLsbD 0 = false := by simpa [jumpOffsetEven] using he
    apply BitVec.eq_of_getLsbD_eq
    intro i hi
    simp only [fieldJ, encodeJ, BitVec.getLsbD_append, BitVec.getLsbD_extractLsb']
    grind
  all_goals
    intro i hi
    simp only [encodeJ, BitVec.getLsbD_append]
    split_ifs <;> first | omega | (congr 1; omega)

/-! ## The encoding of a word's own fields -/

theorem encodeR_of_fields (w : InstrWord) :
    encodeR (funct7Of w) (rs2Of w) (rs1Of w) (funct3Of w) (rdOf w) (opcodeOf w) = w := by
  apply BitVec.eq_of_getLsbD_eq
  intro i hi
  simp only [encodeR, rs2Of, rs1Of, rdOf, funct7Of, funct3Of, opcodeOf, regField_toFin,
    BitVec.getLsbD_append, BitVec.getLsbD_extractLsb']
  grind

theorem encodeI_of_fields (w : InstrWord) :
    encodeI (fieldI w) (rs1Of w) (funct3Of w) (rdOf w) (opcodeOf w) = w := by
  apply BitVec.eq_of_getLsbD_eq
  intro i hi
  simp only [encodeI, fieldI, rs1Of, rdOf, funct3Of, opcodeOf, regField_toFin,
    BitVec.getLsbD_append, BitVec.getLsbD_extractLsb']
  grind

theorem encodeS_of_fields (w : InstrWord) :
    encodeS (fieldS w) (rs2Of w) (rs1Of w) (funct3Of w) (opcodeOf w) = w := by
  apply BitVec.eq_of_getLsbD_eq
  intro i hi
  simp only [encodeS, fieldS, rs1Of, rs2Of, funct3Of, opcodeOf, regField_toFin,
    BitVec.getLsbD_append, BitVec.getLsbD_extractLsb']
  grind

theorem encodeB_of_fields (w : InstrWord) :
    encodeB (fieldB w) (rs2Of w) (rs1Of w) (funct3Of w) (opcodeOf w) = w := by
  apply BitVec.eq_of_getLsbD_eq
  intro i hi
  simp only [encodeB, fieldB, rs1Of, rs2Of, funct3Of, opcodeOf, regField_toFin,
    BitVec.getLsbD_append, BitVec.getLsbD_extractLsb']
  grind

theorem encodeU_of_fields (w : InstrWord) : encodeU (fieldU w) (rdOf w) (opcodeOf w) = w := by
  apply BitVec.eq_of_getLsbD_eq
  intro i hi
  simp only [encodeU, fieldU, rdOf, opcodeOf, regField_toFin, BitVec.getLsbD_append, BitVec.getLsbD_extractLsb']
  grind

theorem encodeJ_of_fields (w : InstrWord) : encodeJ (fieldJ w) (rdOf w) (opcodeOf w) = w := by
  apply BitVec.eq_of_getLsbD_eq
  intro i hi
  simp only [encodeJ, fieldJ, rdOf, opcodeOf, regField_toFin, BitVec.getLsbD_append, BitVec.getLsbD_extractLsb']
  grind

/-- The offsets the decoder assembles are even. -/
theorem fieldB_even (w : InstrWord) : branchOffsetEven (fieldB w) = true := by
  simp only [branchOffsetEven, fieldB, BitVec.getLsbD_append]; simp

theorem fieldJ_even (w : InstrWord) : jumpOffsetEven (fieldJ w) = true := by
  simp only [jumpOffsetEven, fieldJ, BitVec.getLsbD_append]; simp

/-! ## The decoder's arms (R68): what selects each, and that nothing else does -/

/-- The word selects the arm, and the arm answers the instruction. -/
inductive Decoded (d : DivremOpcode) (w : InstrWord) : Instr → Prop where
  | lui (h : opcodeOf w = opLui) :
      Decoded d w (.lui (rdOf w) (fieldU w))
  | jal (h : opcodeOf w = opJal) :
      Decoded d w (.jal (rdOf w) (fieldJ w))
  | jalr (h : opcodeOf w = opJalr) :
      Decoded d w (.jalr (rdOf w) (rs1Of w) (fieldI w) (funct3Of w))
  | beq (h : opcodeOf w = opBranch ∧ funct3Of w = 0b000#3) :
      Decoded d w (.beq (rs1Of w) (rs2Of w) (fieldB w))
  | ld (h : opcodeOf w = opLoad ∧ funct3Of w = 0b011#3) :
      Decoded d w (.ld (rdOf w) (rs1Of w) (fieldI w))
  | sd (h : opcodeOf w = opStore ∧ funct3Of w = 0b011#3) :
      Decoded d w (.sd (rs1Of w) (rs2Of w) (fieldS w))
  | addi (h : opcodeOf w = opOpImm ∧ funct3Of w = 0b000#3) :
      Decoded d w (.addi (rdOf w) (rs1Of w) (fieldI w))
  | system (h : opcodeOf w = opSystem ∧ funct3Of w = 0b000#3) :
      Decoded d w (decodeSystem w)
  | add (h : opcodeOf w = opOp ∧ funct3Of w = 0b000#3 ∧ funct7Of w = 0b0000000#7) :
      Decoded d w (.add (rdOf w) (rs1Of w) (rs2Of w))
  | sub (h : opcodeOf w = opOp ∧ funct3Of w = 0b000#3 ∧ funct7Of w = 0b0100000#7) :
      Decoded d w (.sub (rdOf w) (rs1Of w) (rs2Of w))
  | mul (h : opcodeOf w = opOp ∧ funct3Of w = 0b000#3 ∧ funct7Of w = 0b0000001#7) :
      Decoded d w (.mul (rdOf w) (rs1Of w) (rs2Of w))
  | sltu (h : opcodeOf w = opOp ∧ funct3Of w = 0b011#3 ∧ funct7Of w = 0b0000000#7) :
      Decoded d w (.sltu (rdOf w) (rs1Of w) (rs2Of w))
  | divu (h : opcodeOf w = divremOp d ∧ funct3Of w = 0b101#3 ∧ funct7Of w = 0b0000001#7) :
      Decoded d w (.divu (rdOf w) (rs1Of w) (rs2Of w))
  | remu (h : opcodeOf w = divremOp d ∧ funct3Of w = 0b111#3 ∧ funct7Of w = 0b0000001#7) :
      Decoded d w (.remu (rdOf w) (rs1Of w) (rs2Of w))

/-- Whatever the decoder answers, one of its arms answers. -/
theorem decodeWord_some {d : DivremOpcode} {w : InstrWord} {i : Instr} (h : decodeWord d w = some i) :
    Decoded d w i := by
  unfold decodeWord at h
  dsimp only at h
  by_cases c : opcodeOf w = opLui
  · rw [if_pos c] at h; cases h; exact .lui c
  rw [if_neg c] at h; clear c
  by_cases c : opcodeOf w = opJal
  · rw [if_pos c] at h; cases h; exact .jal c
  rw [if_neg c] at h; clear c
  by_cases c : opcodeOf w = opJalr
  · rw [if_pos c] at h; cases h; exact .jalr c
  rw [if_neg c] at h; clear c
  by_cases c : opcodeOf w = opBranch ∧ funct3Of w = 0b000#3
  · rw [if_pos c] at h; cases h; exact .beq c
  rw [if_neg c] at h; clear c
  by_cases c : opcodeOf w = opLoad ∧ funct3Of w = 0b011#3
  · rw [if_pos c] at h; cases h; exact .ld c
  rw [if_neg c] at h; clear c
  by_cases c : opcodeOf w = opStore ∧ funct3Of w = 0b011#3
  · rw [if_pos c] at h; cases h; exact .sd c
  rw [if_neg c] at h; clear c
  by_cases c : opcodeOf w = opOpImm ∧ funct3Of w = 0b000#3
  · rw [if_pos c] at h; cases h; exact .addi c
  rw [if_neg c] at h; clear c
  by_cases c : opcodeOf w = opSystem ∧ funct3Of w = 0b000#3
  · rw [if_pos c] at h; cases h; exact .system c
  rw [if_neg c] at h; clear c
  by_cases c : opcodeOf w = opOp ∧ funct3Of w = 0b000#3 ∧ funct7Of w = 0b0000000#7
  · rw [if_pos c] at h; cases h; exact .add c
  rw [if_neg c] at h; clear c
  by_cases c : opcodeOf w = opOp ∧ funct3Of w = 0b000#3 ∧ funct7Of w = 0b0100000#7
  · rw [if_pos c] at h; cases h; exact .sub c
  rw [if_neg c] at h; clear c
  by_cases c : opcodeOf w = opOp ∧ funct3Of w = 0b000#3 ∧ funct7Of w = 0b0000001#7
  · rw [if_pos c] at h; cases h; exact .mul c
  rw [if_neg c] at h; clear c
  by_cases c : opcodeOf w = opOp ∧ funct3Of w = 0b011#3 ∧ funct7Of w = 0b0000000#7
  · rw [if_pos c] at h; cases h; exact .sltu c
  rw [if_neg c] at h; clear c
  by_cases c : opcodeOf w = divremOp d ∧ funct3Of w = 0b101#3 ∧ funct7Of w = 0b0000001#7
  · rw [if_pos c] at h; cases h; exact .divu c
  rw [if_neg c] at h; clear c
  by_cases c : opcodeOf w = divremOp d ∧ funct3Of w = 0b111#3 ∧ funct7Of w = 0b0000001#7
  · rw [if_pos c] at h; cases h; exact .remu c
  rw [if_neg c] at h; clear c
  cases h

/-- Each arm's key selects it. -/
theorem decodeWord_of_decoded {d : DivremOpcode} {w : InstrWord} {i : Instr} (h : Decoded d w i) :
    decodeWord d w = some i := by
  cases h with
  | lui h => simp [decodeWord, h]
  | jal h => simp [decodeWord, h]
  | jalr h => simp [decodeWord, h]
  | beq h => simp [decodeWord, h.1, h.2]
  | ld h => simp [decodeWord, h.1, h.2]
  | sd h => simp [decodeWord, h.1, h.2]
  | addi h => simp [decodeWord, h.1, h.2]
  | system h => simp [decodeWord, h.1, h.2]
  | add h => simp [decodeWord, h.1, h.2.1, h.2.2]
  | sub h => simp [decodeWord, h.1, h.2.1, h.2.2]
  | mul h => simp [decodeWord, h.1, h.2.1, h.2.2]
  | sltu h => simp [decodeWord, h.1, h.2.1, h.2.2]
  | divu h => cases d <;> simp [decodeWord, h.1, h.2.1, h.2.2]
  | remu h => cases d <;> simp [decodeWord, h.1, h.2.1, h.2.2]

theorem decodeWord_eq_some {d : DivremOpcode} {w : InstrWord} {i : Instr} :
    decodeWord d w = some i ↔ Decoded d w i :=
  ⟨decodeWord_some, decodeWord_of_decoded⟩

theorem decodeWord_eq_none {d : DivremOpcode} {w : InstrWord} (h : ∀ i, ¬ Decoded d w i) :
    decodeWord d w = none := by
  cases e : decodeWord d w with
  | none => rfl
  | some i => exact absurd (decodeWord_some e) (h i)

end Sys2Proof
end

