-- ==== Sys2Proof/Laws/State.lean ====
section
/-!
SUPPORT. One lemma per field per update of State, and what a register write and read do.
-/
namespace Sys2Proof.Machine

variable (s : State)

@[simp] theorem State.zeroX0_regs : s.zeroX0.regs = s.regs.set 0 0 := rfl
@[simp] theorem State.zeroX0_pc : s.zeroX0.pc = s.pc := rfl
@[simp] theorem State.zeroX0_run : s.zeroX0.run = s.run := rfl
@[simp] theorem State.zeroX0_haltRecord : s.zeroX0.haltRecord = s.haltRecord := rfl
@[simp] theorem State.zeroX0_mem : s.zeroX0.mem = s.mem := rfl

@[simp] theorem State.advancePc_regs : s.advancePc.regs = s.regs := rfl
@[simp] theorem State.advancePc_pc : s.advancePc.pc = s.pc + 4#64 := rfl
@[simp] theorem State.advancePc_run : s.advancePc.run = s.run := rfl
@[simp] theorem State.advancePc_haltRecord : s.advancePc.haltRecord = s.haltRecord := rfl
@[simp] theorem State.advancePc_mem : s.advancePc.mem = s.mem := rfl

@[simp] theorem State.setPc_regs (target : Word) : (s.setPc target).regs = s.regs := rfl
@[simp] theorem State.setPc_pc (target : Word) : (s.setPc target).pc = target := rfl
@[simp] theorem State.setPc_run (target : Word) : (s.setPc target).run = s.run := rfl
@[simp] theorem State.setPc_haltRecord (target : Word) : (s.setPc target).haltRecord = s.haltRecord := rfl
@[simp] theorem State.setPc_mem (target : Word) : (s.setPc target).mem = s.mem := rfl

@[simp] theorem State.raise_regs (r : HaltRecord) : (s.raise r).regs = s.regs := rfl
@[simp] theorem State.raise_pc (r : HaltRecord) : (s.raise r).pc = s.pc := rfl
@[simp] theorem State.raise_run (r : HaltRecord) : (s.raise r).run = .halted := rfl
@[simp] theorem State.raise_haltRecord (r : HaltRecord) : (s.raise r).haltRecord = some r := rfl
@[simp] theorem State.raise_mem (r : HaltRecord) : (s.raise r).mem = s.mem := rfl

@[simp] theorem State.writeReg_pc (r : Reg) (v : Word) : (s.writeReg r v).pc = s.pc := by
  unfold State.writeReg; split <;> rfl
@[simp] theorem State.writeReg_run (r : Reg) (v : Word) : (s.writeReg r v).run = s.run := by
  unfold State.writeReg; split <;> rfl
@[simp] theorem State.writeReg_haltRecord (r : Reg) (v : Word) :
    (s.writeReg r v).haltRecord = s.haltRecord := by
  unfold State.writeReg; split <;> rfl
@[simp] theorem State.writeReg_mem (r : Reg) (v : Word) : (s.writeReg r v).mem = s.mem := by
  unfold State.writeReg; split <;> rfl

/-- Two states with the same register file read the same registers. -/
theorem State.readReg_congr {s t : State} (h : t.regs = s.regs) (r : Reg) : t.readReg r = s.readReg r := by
  unfold State.readReg; rw [h]

@[simp] theorem State.readReg_zero : s.readReg 0 = 0 := rfl
@[simp] theorem State.readReg_advancePc (r : Reg) : s.advancePc.readReg r = s.readReg r := rfl
@[simp] theorem State.readReg_setPc (target : Word) (r : Reg) :
    (s.setPc target).readReg r = s.readReg r := rfl
@[simp] theorem State.readReg_raise (h : HaltRecord) (r : Reg) : (s.raise h).readReg r = s.readReg r := rfl
@[simp] theorem State.readReg_withMem (m : Memory) (r : Reg) :
    State.readReg { s with mem := m } r = s.readReg r := rfl

/-- Setting x0 to 0 changes no read (10_state.md R18). -/
@[simp] theorem State.readReg_zeroX0 (r : Reg) : s.zeroX0.readReg r = s.readReg r := by
  by_cases h : r = 0
  · simp [h]
  · have h' : 0 ≠ r.val := fun e => h (Fin.ext e.symm)
    simp only [State.readReg, if_neg h, State.zeroX0_regs, Fin.getElem_fin]
    exact Vector.getElem_set_ne _ _ h'

/-- What a register write leaves every register reading. -/
theorem State.readReg_writeReg (rd r : Reg) (v : Word) :
    (s.writeReg rd v).readReg r = if r = rd ∧ r ≠ 0 then v else s.readReg r := by
  by_cases h : r = 0
  · simp [h]
  · by_cases hd : rd = 0
    · have hne : r ≠ rd := fun e => h (e.trans hd)
      simp [State.writeReg, hd, h]
    · by_cases e : r = rd
      · subst e; simp [State.writeReg, State.readReg, h]
      · have hne : rd.val ≠ r.val := fun e' => e (Fin.ext e'.symm)
        simp only [State.writeReg, State.readReg, if_neg hd, if_neg h, e, false_and, if_false, Fin.getElem_fin]
        exact Vector.getElem_set_ne _ _ hne

/-- A register write keeps x0's cell. -/
theorem State.writeReg_regs_zero (rd : Reg) (v : Word) : (s.writeReg rd v).regs[0] = s.regs[0] := by
  unfold State.writeReg
  split
  · rfl
  · rename_i h
    exact Vector.getElem_set_ne rd.isLt (by decide) fun e => h (Fin.ext e)

@[simp] theorem State.resetOf_regs (cfg : Config) (m : Memory) : (State.resetOf cfg m).regs = resetRegs cfg := by
  rw [State.resetOf]
@[simp] theorem State.resetOf_pc (cfg : Config) (m : Memory) : (State.resetOf cfg m).pc = resetPc cfg := by
  rw [State.resetOf]
@[simp] theorem State.resetOf_run (cfg : Config) (m : Memory) : (State.resetOf cfg m).run = .running := by
  rw [State.resetOf]
@[simp] theorem State.resetOf_haltRecord (cfg : Config) (m : Memory) : (State.resetOf cfg m).haltRecord = none := by
  rw [State.resetOf]
@[simp] theorem State.resetOf_mem (cfg : Config) (m : Memory) : (State.resetOf cfg m).mem = m := by
  rw [State.resetOf]

/-- What reset() leaves every register reading (10_state.md R33). -/
theorem State.readReg_resetOf (cfg : Config) (m : Memory) (r : Reg) :
    (State.resetOf cfg m).readReg r = resetReg cfg r := by
  unfold State.readReg
  split
  · rename_i h; subst h; rfl
  · show (Vector.ofFn (resetReg cfg))[r.val] = resetReg cfg r
    rw [Vector.getElem_ofFn]

end Sys2Proof.Machine
end

