-- ==== Sys2Proof/Laws/Effects.lean ====
section
/-!
SUPPORT. Everything an instruction and a step can do, said once: the inversion lemmas that later proofs cite instead of
unfolding the meanings.
-/
namespace Sys2Proof.Machine

/-- The states an instruction can leave, from the state its meaning runs in. -/
inductive ExecEffect (cfg : Config) (i : Instr) (s : State) : State → Prop where
  /-- It wrote its destination and advanced. -/
  | wrote (rd : Reg) (v : Word) (h : destination i = some rd) :
      ExecEffect cfg i s ((s.writeReg rd v).advancePc)
  /-- JAL linked and jumped. -/
  | jal (rd : Reg) (offset : BitVec 21) (h : i = .jal rd offset) (ha : TargetAligned (jalTarget s.pc offset)) :
      ExecEffect cfg i s ((s.writeReg rd (returnAddress s.pc)).setPc (jalTarget s.pc offset))
  /-- JALR linked and jumped. -/
  | jalr (rd rs1 : Reg) (imm : BitVec 12) (f3 : BitVec 3) (h : i = .jalr rd rs1 imm f3)
      (ha : TargetAligned (jalrTarget s rs1 imm)) :
      ExecEffect cfg i s ((s.writeReg rd (returnAddress s.pc)).setPc (jalrTarget s rs1 imm))
  /-- BEQ was taken. -/
  | taken (rs1 rs2 : Reg) (offset : BitVec 13) (h : i = .beq rs1 rs2 offset)
      (he : s.readReg rs1 = s.readReg rs2) (ha : TargetAligned (beqTarget s.pc offset)) :
      ExecEffect cfg i s (s.setPc (beqTarget s.pc offset))
  /-- Only the pc advanced: an untaken BEQ or a SYSTEM no-op. -/
  | advanced (h : destination i = none) (hs : ∀ rs1 rs2 imm, i ≠ .sd rs1 rs2 imm) :
      ExecEffect cfg i s s.advancePc
  /-- SD stored. -/
  | stored (rs1 rs2 : Reg) (imm : BitVec 12) (m : Memory) (h : i = .sd rs1 rs2 imm)
      (hm : dataWrite cfg s.mem (storeAddress s rs1 imm) (s.readReg rs2) = .ok m) :
      ExecEffect cfg i s ({ s with mem := m }.advancePc)
  /-- A misaligned control-flow target. -/
  | badTarget (kind : HaltKind) (target : Word) (hk : kind = .jump ∨ kind = .branch) :
      ExecEffect cfg i s (s.advancePc.raise (targetRecord kind s.pc (encode i) target))
  /-- A condition of a data access. -/
  | badAccess (c : Condition) (kind : HaltKind) (addr : Word) (hk : kind = .load ∨ kind = .store)
      (hc : c = .addressMisaligned ∨ c = .outOfBounds) :
      ExecEffect cfg i s (s.advancePc.raise (dataRecord c kind s.pc (encode i) addr 64#8))

theorem effect_of_eq {cfg : Config} {i : Instr} {s t u : State} (h : ExecEffect cfg i s u)
    (e : (Host.Outcome.next u : Result) = .next t) : ExecEffect cfg i s t := by
  cases e; exact h

/-- The inversion lemma of the handlers. -/
theorem execWith_effect {cfg : Config} {i : Instr} {s t : State} (h : execWith cfg i s = .next t) :
    ExecEffect cfg i s t := by
  cases i with
  | lui rd imm => exact effect_of_eq (.wrote rd _ rfl) h
  | jal rd offset =>
    simp only [execWith, execJal, jumpAndLink] at h
    split at h
    · exact effect_of_eq (.jal rd offset rfl ‹_›) h
    · exact effect_of_eq (.badTarget .jump _ (.inl rfl)) h
  | jalr rd rs1 imm f3 =>
    simp only [execWith, execJalr, jumpAndLink] at h
    split at h
    · exact effect_of_eq (.jalr rd rs1 imm f3 rfl ‹_›) h
    · exact effect_of_eq (.badTarget .jump _ (.inl rfl)) h
  | beq rs1 rs2 offset =>
    simp only [execWith, execBeq] at h
    split at h
    · rename_i he
      split at h
      · exact effect_of_eq (.taken rs1 rs2 offset rfl (by simpa [equal64] using he) ‹_›) h
      · exact effect_of_eq (.badTarget .branch _ (.inr rfl)) h
    · exact effect_of_eq (.advanced rfl (by simp)) h
  | ld rd rs1 imm =>
    simp only [execWith, ldWith] at h
    split at h
    · exact effect_of_eq (.wrote rd _ rfl) h
    · rename_i c hc
      refine effect_of_eq (.badAccess c .load _ (.inl rfl) ?_) h
      rcases dataRead_error hc with h | h <;> simp [h.1]
  | sd rs1 rs2 imm =>
    simp only [execWith, sdWith] at h
    split at h
    · exact effect_of_eq (.stored rs1 rs2 imm _ rfl ‹_›) h
    · rename_i c hc
      refine effect_of_eq (.badAccess c .store _ (.inr rfl) ?_) h
      rcases dataWrite_error hc with h | h <;> simp [h.1]
  | addi rd rs1 imm => exact effect_of_eq (.wrote rd _ rfl) h
  | add rd rs1 rs2 => exact effect_of_eq (.wrote rd _ rfl) h
  | sub rd rs1 rs2 => exact effect_of_eq (.wrote rd _ rfl) h
  | mul rd rs1 rs2 => exact effect_of_eq (.wrote rd _ rfl) h
  | sltu rd rs1 rs2 => exact effect_of_eq (.wrote rd _ rfl) h
  | divu rd rs1 rs2 => exact effect_of_eq (.wrote rd _ rfl) h
  | remu rd rs1 rs2 => exact effect_of_eq (.wrote rd _ rfl) h
  | ecall => exact effect_of_eq (.advanced rfl (by simp)) h
  | ebreak => exact effect_of_eq (.advanced rfl (by simp)) h
  | systemNop rd rs1 imm => exact effect_of_eq (.advanced rfl (by simp)) h

/-- On this hardware the handlers are those of the reference configuration. -/
theorem exec_eq_execWith (i : Instr) (s : State) : exec i s = execWith reference i s := by
  cases i <;> rfl

theorem exec_effect {i : Instr} {s t : State} (h : exec i s = .next t) : ExecEffect reference i s t :=
  execWith_effect (exec_eq_execWith i s ▸ h)

/-- The states one step of a RUNNING core can leave (spec/40_fetch_execute.md R76). -/
inductive CycleEffect (cfg : Config) (handler : Instr → State → Result) (s t : State) : Prop where
  /-- A fetch condition: the pc is not advanced. -/
  | fetchHalt (r : HaltRecord) (h : fetch cfg s = .error r) (ht : t = s.zeroX0.raise r)
  /-- An Illegal word: the pc is advanced. -/
  | illegal (w : InstrWord) (h : fetch cfg s = .ok w) (hd : decodeWord cfg.divremOpcode w = none)
      (ht : t = s.zeroX0.advancePc.raise (illegalRecord s.pc w))
  /-- A legal word: its handler. -/
  | handled (w : InstrWord) (i : Instr) (h : fetch cfg s = .ok w) (hd : decodeWord cfg.divremOpcode w = some i)
      (ht : handler i s.zeroX0 = .next t)

/-- The inversion lemma of the cycle. -/
theorem cycle_effect {cfg : Config} {handler : Instr → State → Result} {s t : State} (hr : s.run = .running)
    (h : cycle cfg handler s = .next t) : CycleEffect cfg handler s t := by
  unfold cycle at h
  rw [hr] at h
  simp only [fetch_zeroX0] at h
  split at h
  · rename_i r hf
    exact .fetchHalt r hf (Host.Outcome.next.inj h).symm
  · rename_i w hf
    split at h
    · exact .illegal w hf ‹_› (Host.Outcome.next.inj h).symm
    · exact .handled w _ hf ‹_› h

theorem cycle_halted {cfg : Config} {handler : Instr → State → Result} {s : State} (hr : s.run = .halted) :
    cycle cfg handler s = .next s := by
  unfold cycle; rw [hr]

theorem cycle_fetchHalt {cfg : Config} {handler : Instr → State → Result} {s : State} {r : HaltRecord}
    (hr : s.run = .running) (hf : fetch cfg s = .error r) : cycle cfg handler s = .next (s.zeroX0.raise r) := by
  unfold cycle; rw [hr]; simp only [fetch_zeroX0, hf]

theorem cycle_illegal {cfg : Config} {handler : Instr → State → Result} {s : State} {w : InstrWord}
    (hr : s.run = .running) (hf : fetch cfg s = .ok w) (hd : decodeWord cfg.divremOpcode w = none) :
    cycle cfg handler s = .next (s.zeroX0.advancePc.raise (illegalRecord s.pc w)) := by
  unfold cycle; rw [hr]; simp only [fetch_zeroX0, hf, hd]

theorem cycle_handled {cfg : Config} {handler : Instr → State → Result} {s : State} {w : InstrWord} {i : Instr}
    (hr : s.run = .running) (hf : fetch cfg s = .ok w) (hd : decodeWord cfg.divremOpcode w = some i) :
    cycle cfg handler s = handler i s.zeroX0 := by
  unfold cycle; rw [hr]; simp only [fetch_zeroX0, hf, hd]

/-- Every handler answers a next state. -/
theorem execWith_next (cfg : Config) (i : Instr) (s : State) : ∃ t, execWith cfg i s = .next t := by
  cases i with
  | jal rd offset => simp only [execWith, execJal, jumpAndLink]; split <;> exact ⟨_, rfl⟩
  | jalr rd rs1 imm f3 => simp only [execWith, execJalr, jumpAndLink]; split <;> exact ⟨_, rfl⟩
  | beq rs1 rs2 offset => simp only [execWith, execBeq]; split_ifs <;> exact ⟨_, rfl⟩
  | ld rd rs1 imm => simp only [execWith, ldWith]; split <;> exact ⟨_, rfl⟩
  | sd rs1 rs2 imm => simp only [execWith, sdWith]; split <;> exact ⟨_, rfl⟩
  | lui rd imm => exact ⟨_, rfl⟩
  | addi rd rs1 imm => exact ⟨_, rfl⟩
  | add rd rs1 rs2 => exact ⟨_, rfl⟩
  | sub rd rs1 rs2 => exact ⟨_, rfl⟩
  | mul rd rs1 rs2 => exact ⟨_, rfl⟩
  | sltu rd rs1 rs2 => exact ⟨_, rfl⟩
  | divu rd rs1 rs2 => exact ⟨_, rfl⟩
  | remu rd rs1 rs2 => exact ⟨_, rfl⟩
  | ecall => exact ⟨_, rfl⟩
  | ebreak => exact ⟨_, rfl⟩
  | systemNop rd rs1 imm => exact ⟨_, rfl⟩

/-- A register-writing meaning leaves its destination written and nothing else but the advance. -/
theorem writeResult_spec (rd : Reg) (v : Word) (s : State) :
    ∃ t, writeResult rd v s = .next t ∧
      (∀ r, t.readReg r = if r = rd ∧ r ≠ 0 then v else s.readReg r) ∧
      t.pc = s.pc + 4#64 ∧ t.mem = s.mem ∧ t.run = s.run ∧ t.haltRecord = s.haltRecord :=
  ⟨_, rfl, fun r => by rw [State.readReg_advancePc, State.readReg_writeReg], by simp, by simp, by simp, by simp⟩

end Sys2Proof.Machine
end

