-- ==== Sys2Proof/Laws/LoadStore.lean ====
section
/-!
SUPPORT. The three answers of LD and of SD under any configuration (spec/43_load_store.md R94 to R96).
-/
namespace Sys2Proof.Machine

variable {cfg : Config} {s : State} {imm : BitVec 12}

theorem ldWith_inside {rd rs1 : Reg} (h : ¬ MisalignedHalt cfg (loadAddress s rs1 imm))
    (hb : InBounds cfg (loadAddress s rs1 imm) 8) :
    ldWith cfg rd rs1 imm s =
      .next ((s.writeReg rd (s.mem.readLE (loadAddress s rs1 imm).toNat 8)).advancePc) := by
  rw [ldWith, dataRead_inside h hb]

theorem ldWith_misaligned {rd rs1 : Reg} (h : MisalignedHalt cfg (loadAddress s rs1 imm)) :
    ldWith cfg rd rs1 imm s = .next (s.advancePc.raise
      (dataRecord .addressMisaligned .load s.pc (encode (.ld rd rs1 imm)) (loadAddress s rs1 imm) 64#8)) := by
  rw [ldWith, dataRead_misaligned h]

theorem ldWith_outside {rd rs1 : Reg} (h : ¬ MisalignedHalt cfg (loadAddress s rs1 imm))
    (hb : ¬ InBounds cfg (loadAddress s rs1 imm) 8) :
    ldWith cfg rd rs1 imm s = .next (s.advancePc.raise
      (dataRecord .outOfBounds .load s.pc (encode (.ld rd rs1 imm)) (loadAddress s rs1 imm) 64#8)) := by
  rw [ldWith, dataRead_outside h hb]

theorem sdWith_inside {rs1 rs2 : Reg} (h : ¬ MisalignedHalt cfg (storeAddress s rs1 imm))
    (hb : InBounds cfg (storeAddress s rs1 imm) 8) :
    sdWith cfg rs1 rs2 imm s =
      .next ({ s with mem := s.mem.writeLE (storeAddress s rs1 imm).toNat (s.readReg rs2) 8 }.advancePc) := by
  rw [sdWith, dataWrite_inside h hb]

theorem sdWith_misaligned {rs1 rs2 : Reg} (h : MisalignedHalt cfg (storeAddress s rs1 imm)) :
    sdWith cfg rs1 rs2 imm s = .next (s.advancePc.raise
      (dataRecord .addressMisaligned .store s.pc (encode (.sd rs1 rs2 imm)) (storeAddress s rs1 imm) 64#8)) := by
  rw [sdWith, dataWrite_misaligned h]

theorem sdWith_outside {rs1 rs2 : Reg} (h : ¬ MisalignedHalt cfg (storeAddress s rs1 imm))
    (hb : ¬ InBounds cfg (storeAddress s rs1 imm) 8) :
    sdWith cfg rs1 rs2 imm s = .next (s.advancePc.raise
      (dataRecord .outOfBounds .store s.pc (encode (.sd rs1 rs2 imm)) (storeAddress s rs1 imm) 64#8)) := by
  rw [sdWith, dataWrite_outside h hb]

end Sys2Proof.Machine
end

