-- ==== Sys2Proof/Laws/Operands.lean ====
section
/-!
SUPPORT. The control-flow targets as numbers (spec/60_exceptions.md R112, spec/41_upper_and_jumps.md R91).
-/
namespace Sys2Proof.Machine

/-- The alignment check reads the target modulo 4. -/
theorem targetAligned_iff (t : Word) : TargetAligned t ↔ t.toNat % 4 = 0 := by
  rw [TargetAligned, ← BitVec.toNat_inj]
  simp [BitVec.extractLsb'_toNat]

/-- JALR's target is the sum with bit 0 cleared. -/
theorem jalrTarget_toNat (s : State) (rs1 : Reg) (imm : BitVec 12) :
    (jalrTarget s rs1 imm).toNat = (s.readReg rs1 + imm.signExtend 64).toNat / 2 * 2 := by
  have : (s.readReg rs1 + immI imm) &&& ~~~1#64 = ((s.readReg rs1 + immI imm) >>> 1) <<< 1 := by
    apply BitVec.eq_of_getLsbD_eq
    intro i hi
    simp only [BitVec.getLsbD_and, BitVec.getLsbD_not, BitVec.getLsbD_one, BitVec.getLsbD_shiftLeft,
      BitVec.getLsbD_ushiftRight]
    rcases i with _ | i
    · simp
    · simp [hi, Nat.add_comm 1 i]
  rw [jalrTarget, this, BitVec.toNat_shiftLeft, BitVec.toNat_ushiftRight, immI]
  generalize s.readReg rs1 + imm.signExtend 64 = x
  have := x.isLt
  simp only [Nat.shiftLeft_eq, Nat.shiftRight_eq_div_pow]
  omega

/-- JALR's target is aligned exactly when bit 1 of the sum is clear. -/
theorem jalrTarget_aligned_iff (s : State) (rs1 : Reg) (imm : BitVec 12) :
    TargetAligned (jalrTarget s rs1 imm) ↔ (s.readReg rs1 + imm.signExtend 64).getLsbD 1 = false := by
  rw [targetAligned_iff, jalrTarget_toNat]
  generalize s.readReg rs1 + imm.signExtend 64 = x
  rw [BitVec.getLsbD, Nat.testBit, Nat.shiftRight_eq_div_pow, Nat.one_and_eq_mod_two]
  simp
  omega

end Sys2Proof.Machine
end

