-- ==== Sys2Proof/Laws/PerInstr.lean ====
section
/-!
SUPPORT. Statements made for every instruction, one lemma per constructor.
EncodedOpcode: the low seven bits of an instruction's word are its family's major opcode (spec/30_encoding.md R64).
-/

/-- The low seven bits of the word are the family's major opcode, under both values of DIVREM_OPCODE. -/
def Sys2Proof.Laws.EncodedOpcode.Statement (i : Sys2Proof.Instr) : Prop :=
  ∀ d : Sys2Proof.DivremOpcode, Sys2Proof.opcodeOf (Sys2Proof.encodeWith d i) = Sys2Proof.majorOpcode d i

namespace Sys2Proof.Laws.EncodedOpcode

theorem lui (rd : Reg) (imm : BitVec 20) : Statement (.lui rd imm) := fun _ => (encodeU_fields _ _ _).1
theorem jal (rd : Reg) (offset : BitVec 21) : Statement (.jal rd offset) := fun _ => (encodeJ_fields _ _ _).1
theorem jalr (rd rs1 : Reg) (imm : BitVec 12) (funct3 : BitVec 3) : Statement (.jalr rd rs1 imm funct3) :=
  fun _ => (encodeI_fields _ _ _ _ _).1
theorem beq (rs1 rs2 : Reg) (offset : BitVec 13) : Statement (.beq rs1 rs2 offset) :=
  fun _ => (encodeB_fields _ _ _ _ _).1
theorem ld (rd rs1 : Reg) (imm : BitVec 12) : Statement (.ld rd rs1 imm) := fun _ => (encodeI_fields _ _ _ _ _).1
theorem sd (rs1 rs2 : Reg) (imm : BitVec 12) : Statement (.sd rs1 rs2 imm) := fun _ => (encodeS_fields _ _ _ _ _).1
theorem addi (rd rs1 : Reg) (imm : BitVec 12) : Statement (.addi rd rs1 imm) :=
  fun _ => (encodeI_fields _ _ _ _ _).1
theorem add (rd rs1 rs2 : Reg) : Statement (.add rd rs1 rs2) := fun _ => (encodeR_fields _ _ _ _ _ _).1
theorem sub (rd rs1 rs2 : Reg) : Statement (.sub rd rs1 rs2) := fun _ => (encodeR_fields _ _ _ _ _ _).1
theorem mul (rd rs1 rs2 : Reg) : Statement (.mul rd rs1 rs2) := fun _ => (encodeR_fields _ _ _ _ _ _).1
theorem sltu (rd rs1 rs2 : Reg) : Statement (.sltu rd rs1 rs2) := fun _ => (encodeR_fields _ _ _ _ _ _).1
theorem divu (rd rs1 rs2 : Reg) : Statement (.divu rd rs1 rs2) := fun _ => (encodeR_fields _ _ _ _ _ _).1
theorem remu (rd rs1 rs2 : Reg) : Statement (.remu rd rs1 rs2) := fun _ => (encodeR_fields _ _ _ _ _ _).1
theorem ecall : Statement .ecall := fun d => by cases d <;> decide
theorem ebreak : Statement .ebreak := fun d => by cases d <;> decide
theorem systemNop (rd rs1 : Reg) (imm : BitVec 12) : Statement (.systemNop rd rs1 imm) :=
  fun _ => (encodeI_fields _ _ _ _ _).1

end Sys2Proof.Laws.EncodedOpcode
end

