-- ==== Sys2Proof/Laws/Safety.lean ====
section
/-!
SUPPORT. What the shared operations leave, in the terms of Safety.lean: a completed register write, and the records that
differ in their word alone.
-/
namespace Sys2Proof.Machine

@[simp] theorem targetRecord_eraseWord (kind : HaltKind) (pcThis target : Word) (word : InstrWord) :
    (targetRecord kind pcThis word target).eraseWord = ⟨.addressMisaligned, kind, pcThis, none, some target, none⟩ := rfl

@[simp] theorem dataRecord_eraseWord (c : Condition) (kind : HaltKind) (pcThis addr : Word) (word : InstrWord)
    (size : BitVec 8) : (dataRecord c kind pcThis word addr size).eraseWord =
      ⟨c, kind, pcThis, none, if c = .invalidAccessSize then none else some addr, some size⟩ := rfl

/-- A register write and the advance are a retired instruction. -/
theorem State.retired_writeReg (s : State) (rd : Reg) (v : Word) : s.Retired ((s.writeReg rd v).advancePc) rd v :=
  ⟨fun r => by rw [State.readReg_advancePc, State.readReg_writeReg], by simp, by simp, by simp [State.SameRun]⟩

/-- A condition raised after the advance leaves only the record and the advanced pc. -/
theorem State.haltedWith_raise (s : State) (r : HaltRecord) : s.HaltedWith (s.advancePc.raise r) r (s.pc + 4#64) :=
  ⟨rfl, rfl, rfl, rfl, rfl⟩

end Sys2Proof.Machine
end

