-- ==== Sys2Proof/Tests/Slice0.lean ====
section
/-!
SUPPORT. The model's own tests. Expected values are those of spec/95_test_vectors.md (a test names its vector) or are
computed by hand from the rule it cites. The witnesses at the end show, for each statement with hypotheses, values that
meet them together.
-/
namespace Sys2Proof.Tests
open Sys2Proof.Machine

/-! ## Helpers -/

/-- The vectors' start state: RUNNING at an address, registers and memory 0 but for those given; memory in doublewords. -/
def start (pc : Nat) (regs : List (Reg × Word)) (mem : List (Nat × Word)) : State where
  regs := regs.foldl (fun v p => v.set p.1 p.2) (Vector.replicate 32 0)
  pc := BitVec.ofNat 64 pc
  run := .running
  haltRecord := none
  mem := mem.foldl (fun m p => m.writeLE p.1 p.2 8) []

/-- The vectors' start state with one word at 0x8000_0000. -/
def one (w : Word) (regs : List (Reg × Word)) (mem : List (Nat × Word)) : State :=
  start 0x80000000 regs ((0x80000000, w) :: mem)

/-- The outcome is a next state with a property. -/
def after (o : Result) (p : State → Bool) : Bool :=
  match o with
  | .next t => p t
  | .fault _ => false
  | .refused _ => false

/-- RUNNING at a pc, and a register holds a value. -/
def ran (pc : Nat) (r : Reg) (v : Word) (t : State) : Bool :=
  t.run == .running && t.pc == BitVec.ofNat 64 pc && t.readReg r == v

/-- HALTED with a record at a pc. -/
def halted (pc : Nat) (r : HaltRecord) (t : State) : Bool :=
  t.run == .halted && t.pc == BitVec.ofNat 64 pc && t.haltRecord == some r

/-- The reference configuration with the alternatives of MISALIGNED_DATA and DIVREM_OPCODE. -/
def alternative : Config := { reference with misalignedData := .perform, divremOpcode := .op }

/-! ## WellFormed refuses, one term for each check -/

theorem test_wf_refuses_odd_jump : (Instr.jal 1 3).wf = false := by decide
theorem test_wf_refuses_odd_branch : (Instr.beq 1 2 5).wf = false := by decide
theorem test_wf_refuses_ecall_fields : (Instr.systemNop 0 0 0).wf = false := by decide
theorem test_wf_refuses_ebreak_fields : (Instr.systemNop 0 0 1).wf = false := by decide
theorem test_wf_accepts : (Instr.jal 1 2).wf = true ∧ (Instr.beq 1 2 (-4096)).wf = true ∧
    (Instr.systemNop 8 0 0).wf = true ∧ (Instr.systemNop 0 0 2).wf = true := by decide

/-! ## Decode: words written out from the spec -/

/-- V1, V10, V21, V24: LUI, JAL, JALR and a JALR with funct3 = 111. -/
theorem test_decode_upper_and_jumps :
    decodeWord .op32 0xABCDE0B7 = some (.lui 1 0xABCDE) ∧
    decodeWord .op32 0x008000EF = some (.jal 1 8) ∧
    decodeWord .op32 0x001080E7 = some (.jalr 1 1 1 0) ∧
    decodeWord .op32 0x0000F067 = some (.jalr 0 1 0 0b111) := by decide

/-- V11, V15, V16: the ends of JAL's range. -/
theorem test_decode_jal_offsets :
    decodeWord .op32 0xFFDFF06F = some (.jal 0 (-4)) ∧
    decodeWord .op32 0x7FFFF06F = some (.jal 0 1048574) ∧
    decodeWord .op32 0x8000006F = some (.jal 0 (-1048576)) := by decide

/-- V30, V32, V35, V36: BEQ and the ends of its range. -/
theorem test_decode_branch :
    decodeWord .op32 0x00208863 = some (.beq 1 2 16) ∧
    decodeWord .op32 0xFE000CE3 = some (.beq 0 0 (-8)) ∧
    decodeWord .op32 0x7E000FE3 = some (.beq 0 0 4094) ∧
    decodeWord .op32 0x80000063 = some (.beq 0 0 (-4096)) := by decide

/-- V41, V50, V54, V55: LD and SD with the ends of the offset's range. -/
theorem test_decode_load_store :
    decodeWord .op32 0xFF813303 = some (.ld 6 2 (-8)) ∧
    decodeWord .op32 0xFE613C23 = some (.sd 2 6 (-8)) ∧
    decodeWord .op32 0x7E553FA3 = some (.sd 10 5 2047) ∧
    decodeWord .op32 0x80553023 = some (.sd 10 5 (-2048)) := by decide

/-- V60, V62, V64, V80, V83: OP-IMM and OP. -/
theorem test_decode_integer :
    decodeWord .op32 0xFFF08093 = some (.addi 1 1 (-1)) ∧
    decodeWord .op32 0x002081B3 = some (.add 3 1 2) ∧
    decodeWord .op32 0x402081B3 = some (.sub 3 1 2) ∧
    decodeWord .op32 0x022081B3 = some (.mul 3 1 2) ∧
    decodeWord .op32 0x0020B1B3 = some (.sltu 3 1 2) := by decide

/-- V90, V94, V97, V98: DIVU and REMU under both values of DIVREM_OPCODE. -/
theorem test_decode_divide :
    decodeWord .op32 0x0220D1BB = some (.divu 3 1 2) ∧
    decodeWord .op32 0x0220F1BB = some (.remu 3 1 2) ∧
    decodeWord .op32 0x0220D1B3 = none ∧
    decodeWord .op 0x0220D1B3 = some (.divu 3 1 2) ∧
    decodeWord .op 0x0220D1BB = none := by decide

/-- V100 to V104: the SYSTEM no-ops. -/
theorem test_decode_system :
    decodeWord .op32 0x00000073 = some .ecall ∧
    decodeWord .op32 0x00100073 = some .ebreak ∧
    decodeWord .op32 0x30200073 = some (.systemNop 0 0 0x302) ∧
    decodeWord .op32 0x10500073 = some (.systemNop 0 0 0x105) ∧
    decodeWord .op32 0x00000473 = some (.systemNop 8 0 0) := by decide

/-- V130 to V150: the illegal words. -/
theorem test_decode_illegal :
    [0x00000000, 0xFFFFFFFF, 0x00000001, 0x00000017, 0x0000000F, 0x0000100F, 0x00001063].all
      (fun w => (decodeWord .op32 w).isNone) = true ∧
    [0x00002003, 0x00002023, 0x00001013, 0x00004033, 0x00005033, 0x02005033, 0x0000003B].all
      (fun w => (decodeWord .op32 w).isNone) = true ∧
    [0x0000001B, 0xC0002573, 0x40003033, 0x0220C1BB, 0x42000033, 0x0000202F, 0x0000000B].all
      (fun w => (decodeWord .op32 w).isNone) = true := by decide

/-- V118, V119, V120: the fields and immediates of three words. -/
theorem test_fields :
    immIOf 0xABCDE0B7 = 0xFFFFFFFFFFFFFABC ∧ immUOf 0xABCDE0B7 = 0xFFFFFFFFABCDE000 ∧
    immJOf 0xABCDE0B7 = 0xFFFFFFFFFFFDE2BC ∧ immSOf 0xFE613C23 = 0xFFFFFFFFFFFFFFF8 ∧
    immBOf 0xFE613C23 = 0xFFFFFFFFFFFFF7F8 ∧ immBOf 0xFE000CE3 = 0xFFFFFFFFFFFFFFF8 ∧
    rdOf 0xABCDE0B7 = 1 ∧ funct3Of 0xABCDE0B7 = 0b110 ∧ rs1Of 0xABCDE0B7 = 27 ∧ rs2Of 0xABCDE0B7 = 28 ∧
    funct7Of 0xABCDE0B7 = 0b1010101 := by decide

/-- V114 to V117: each isolates one group of immediate bits. -/
theorem test_immediate_bits :
    immSOf 0x00000F80 = 0x1F ∧ immBOf 0x00000F80 = 0x81E ∧ immJOf 0x00100000 = 0x800 ∧
    immJOf 0x000FF000 = 0xFF000 ∧ immSOf 0x00000080 = 1 ∧ immBOf 0x00000080 = 0x800 := by decide

/-- R130: the bytes of a word, lowest address first; what is left over is answered; the rejections by name. -/
theorem test_decode_bytes :
    decodeBytes .op32 [0x93, 0x80, 0xF0, 0xFF, 0x13] = .ok (.addi 1 1 (-1), [0x13]) ∧
    decodeBytes .op32 [0x93, 0x80, 0xF0] = .error .shortInput ∧
    decodeBytes .op32 [0x17, 0x00, 0x00, 0x00] = .error (.illegalInstruction 0x17) :=
  ⟨rfl, rfl, rfl⟩

/-- The encoder gives V23's, V36's, V54's and V16's words, and REMU's under DIVREM_OPCODE = OP. -/
theorem test_encode :
    encode (.jalr 1 6 (-4) 0) = 0xFFC300E7 ∧ encode (.beq 0 0 (-4096)) = 0x80000063 ∧
    encode (.sd 10 5 2047) = 0x7E553FA3 ∧ encode (.jal 0 (-1048576)) = 0x8000006F ∧
    encodeWith .op (.remu 3 1 2) = 0x0220F1B3 := by decide

/-! ## Each instruction, one step -/

/-- V1. -/
theorem test_lui : after (step (one 0xABCDE0B7 [] [])) (ran 0x80000004 1 0xFFFFFFFFABCDE000) = true := by decide
/-- V4. -/
theorem test_lui_positive : after (step (one 0x7FFFF3B7 [] [])) (ran 0x80000004 7 0x7FFFF000) = true := by decide
/-- V14: a target below memory raises nothing. -/
theorem test_jal : after (step (one 0xFF9FF0EF [] [])) (ran 0x7FFFFFF8 1 0x80000004) = true := by decide
/-- V12: no link is written. -/
theorem test_jal_misaligned : after (step (one 0x002000EF [(1, 0x55)] []))
    (fun t => halted 0x80000004 ⟨.addressMisaligned, .jump, 0x80000000, some 0x002000EF, some 0x80000002, none⟩ t &&
      t.readReg 1 == 0x55) = true := by decide
/-- V21: the target comes from the old x1. -/
theorem test_jalr_same_register :
    after (step (one 0x001080E7 [(1, 0x80000100)] [])) (ran 0x80000100 1 0x80000004) = true := by decide
/-- V25: bit 0 is cleared, bit 1 raises. -/
theorem test_jalr_misaligned : after (step (one 0x00228067 [(5, 0x80000001)] []))
    (halted 0x80000004 ⟨.addressMisaligned, .jump, 0x80000000, some 0x00228067, some 0x80000002, none⟩) = true := by
  decide
/-- V36: backwards from 0x8000_1000. -/
theorem test_beq_taken : after (step (start 0x80001000 [] [(0x80001000, 0x80000063)])) (ran 0x80000000 0 0) = true := by
  decide
/-- V34: an untaken branch with a misaligned offset raises nothing. -/
theorem test_beq_untaken :
    after (step (one 0x00208363 [(1, 1), (2, 2)] [])) (ran 0x80000004 1 1) = true := by decide
/-- V42: the address came from the old x5. -/
theorem test_ld_same_register : after (step (one 0x0002B283 [(5, 0x80000200)] [(0x80000200, 0xDEADBEEF)]))
    (ran 0x80000004 5 0xDEADBEEF) = true := by decide
/-- V46: an address near 2^64. -/
theorem test_ld_out_of_bounds : after (step (one 0xFF803303 [] []))
    (halted 0x80000004 ⟨.outOfBounds, .load, 0x80000000, some 0xFF803303, some 0xFFFFFFFFFFFFFFF8, some 64⟩) = true := by
  decide
/-- V50: the byte order. -/
theorem test_sd : after (step (one 0xFE613C23 [(2, 0x80000100), (6, 0x0102030405060708)] []))
    (fun t => t.mem.readByte 0x800000F8 == 0x08 && t.mem.readByte 0x800000FF == 0x01 &&
      t.mem.readByte 0x80000100 == 0x00) = true := by decide
/-- V52: alignment before bounds, and no byte written. -/
theorem test_sd_misaligned : after (step (one 0xFE513FA3 [(2, 0x80100000), (5, 7)] []))
    (fun t => halted 0x80000004
      ⟨.addressMisaligned, .store, 0x80000000, some 0xFE513FA3, some 0x800FFFFF, some 64⟩ t &&
      t.mem == (one 0xFE513FA3 [] []).mem) = true := by decide
/-- V69: it wraps. -/
theorem test_addi : after (step (one 0x00108093 [(1, 0xFFFFFFFFFFFFFFFF)] [])) (ran 0x80000004 1 0) = true := by decide
/-- V155: x0 stays 0. -/
theorem test_addi_x0 : after (step (one 0x00500013 [] [])) (ran 0x80000004 0 0) = true := by decide
/-- V66: rd = rs1 = rs2, and it wraps. -/
theorem test_add : after (step (one 0x001080B3 [(1, 0x8000000000000001)] [])) (ran 0x80000004 1 2) = true := by decide
/-- V64. -/
theorem test_sub :
    after (step (one 0x402081B3 [(1, 3), (2, 4)] [])) (ran 0x80000004 3 0xFFFFFFFFFFFFFFFF) = true := by decide
/-- V82b. -/
theorem test_mul : after (step (one 0x022081B3 [(1, 0xFFFFFFFFFFFFFFFD), (2, 5)] []))
    (ran 0x80000004 3 0xFFFFFFFFFFFFFFF1) = true := by decide
/-- V84: unsigned. -/
theorem test_sltu_unsigned :
    after (step (one 0x0020B1B3 [(1, 0xFFFFFFFFFFFFFFFF), (2, 1), (3, 9)] [])) (ran 0x80000004 3 0) = true := by decide
/-- V83. -/
theorem test_sltu : after (step (one 0x0020B1B3 [(1, 1), (2, 2)] [])) (ran 0x80000004 3 1) = true := by decide
/-- V91: unsigned. -/
theorem test_divu : after (step (one 0x0220D1BB [(1, 0xFFFFFFFFFFFFFFFF), (2, 2)] []))
    (ran 0x80000004 3 0x7FFFFFFFFFFFFFFF) = true := by decide
/-- V93: the default of DIVU_ZERO (log 6). -/
theorem test_divu_zero :
    after (step (one 0x0220D1BB [(1, 100)] [])) (ran 0x80000004 3 0xFFFFFFFFFFFFFFFF) = true := by decide
/-- V95: unsigned. -/
theorem test_remu : after (step (one 0x0220F1BB [(1, 0x8000000000000000), (2, 0xFFFFFFFFFFFFFFFF)] []))
    (ran 0x80000004 3 0x8000000000000000) = true := by decide
/-- V96: the default of REMU_ZERO (log 6). -/
theorem test_remu_zero : after (step (one 0x0220F1BB [(1, 100)] [])) (ran 0x80000004 3 100) = true := by decide
/-- V100. -/
theorem test_ecall : after (step (one 0x00000073 [(10, 5)] [])) (ran 0x80000004 10 5) = true := by decide
/-- V101. -/
theorem test_ebreak : after (step (one 0x00100073 [(10, 5)] [])) (ran 0x80000004 10 5) = true := by decide
/-- V104: x8 is not written. -/
theorem test_systemNop : after (step (one 0x00000473 [(8, 7)] [])) (ran 0x80000004 8 7) = true := by decide

/-! ## The parametric machine -/

/-- V45 with MISALIGNED_DATA = perform. -/
theorem test_ld_perform : after (stepWith alternative (one 0x00453383 [(10, 0x80000100)]
    [(0x80000100, 0x8877665544332211), (0x80000108, 0x00000000FFEEDDCC)]))
    (ran 0x80000004 7 0xFFEEDDCC88776655) = true := by decide
/-- V44 with MISALIGNED_DATA = perform. -/
theorem test_ld_perform_out_of_bounds : after (stepWith alternative (one 0x00453383 [(10, 0x800FFFF8)] []))
    (halted 0x80000004 ⟨.outOfBounds, .load, 0x80000000, some 0x00453383, some 0x800FFFFC, some 64⟩) = true := by decide
/-- V97 with DIVREM_OPCODE = OP. -/
theorem test_divu_op :
    after (stepWith alternative (one 0x0220D1B3 [(1, 100), (2, 7)] [])) (ran 0x80000004 3 14) = true := by decide

/-! ## The step, reset and the interface -/

/-- V106: an Illegal word. -/
theorem test_illegal : after (step (one 0x00004073 [] []))
    (halted 0x80000004 ⟨.illegalInstruction, .decode, 0x80000000, some 0x00004073, none, none⟩) = true := by decide
/-- V151, V152: fetches on both sides of memory leave the pc. -/
theorem test_fetch_out_of_bounds :
    after (step (start 0x80100000 [] []))
      (halted 0x80100000 ⟨.outOfBounds, .fetch, 0x80100000, none, some 0x80100000, some 32⟩) = true ∧
    after (step (start 0x7FFFFFFC [] []))
      (halted 0x7FFFFFFC ⟨.outOfBounds, .fetch, 0x7FFFFFFC, none, some 0x7FFFFFFC, some 32⟩) = true := by decide
/-- V153: the record of V130 is returned again. -/
theorem test_step_while_halted :
    let r : HaltRecord := ⟨.illegalInstruction, .decode, 0x80000000, some 0, none, none⟩
    let s : State := (start 0x80000004 [] []).raise r
    after (step s) (fun t => t == s && t.result == .halt r && t.result.code == 1) = true := by decide
/-- V154: reset() from HALTED. -/
theorem test_reset_from_halted :
    let s : State := (one 0x13 [(9, 9)] []).raise ⟨.illegalInstruction, .decode, 0x80000000, some 0, none, none⟩
    let t := s.resetMachine reference
    t.run = .running ∧ t.pc = 0x80000000 ∧ t.readReg 2 = 0x80100000 ∧ t.haltRecord = none ∧ t.mem = s.mem := by decide
/-- R33. -/
theorem test_reset : State.reset.pc = 0x80000000 ∧ State.reset.readReg 2 = 0x80100000 ∧ State.reset.readReg 0 = 0 ∧
    State.reset.mem.wf := by decide
/-- The host's two questions, on V60's word. -/
theorem test_withFetchWord : decodeTableWord 32 0xFFF08093 = some (.addi 1 1 (-1)) ∧
    after (step (State.reset.withFetchWord 32 0xFFF08093)) (ran 0x80000004 1 0xFFFFFFFFFFFFFFFF) = true := by decide
/-- R129: an image of one word is loaded, then runs. -/
theorem test_boot : (boot reference [0x93, 0x80, 0xF0, 0xFF]).map (fun s => (s.mem, s.pc)) =
    some ([(0x80000000, 0x93), (0x80000001, 0x80), (0x80000002, 0xF0), (0x80000003, 0xFF)], 0x80000000) := by decide
/-- R41, R42: sizes 8 and 16 at the bus. -/
theorem test_bus_narrow :
    memWrite reference [] 0x80000000 16 0xAABBCC = .ok [(0x80000000, 0xCC), (0x80000001, 0xBB)] ∧
    memRead reference [(0x80000000, 0xCC), (0x80000001, 0xBB)] 0x80000001 8 = .ok 0xBB := ⟨rfl, rfl⟩
/-- V104's word is named ECALL in a trace (R107); a halting step emits none (D23). -/
theorem test_trace : traceRecord (one 0x00000473 [] []) = some (0x80000000, "ECALL") ∧
    traceRecord (one 0x002000EF [] []) = none := by decide
/-- R73, R74, R75. -/
theorem test_assembly : asmText (.sd 2 6 (-8)) = some "sd x6, -8(x2)" ∧ regOfName "fp" = some 8 ∧
    regOfName "x31" = some 31 ∧ regOfName "y1" = none ∧
    Pseudo.expand (.li 5 0x12345FFF) = some [.lui 5 0x12346, .addi 5 5 (-1)] := by decide

/-! ## Witnesses: the hypotheses of each statement, met together

A witness about a next state names it by `after`: the outcome is a next state with the property. -/

/-- A state one step of which executes a `nop`. -/
abbrev nopState : State := one 0x13 [] []

/-- A condition has been raised in it. -/
abbrev haltedState : State := (start 0x80000004 [] []).raise (illegalRecord 0x80000000 0)

/-- RUNNING states whose next step halts: a fetch (misaligned, out of bounds), decode, jump, branch, load, store. -/
abbrev haltingStates : List State :=
  [start 0x80000002 [] [], start 0x80100000 [] [], one 0 [] [], one 0x002000EF [] []] ++
  [one 0x00000363 [] [], one 0xFF803303 [] [], one 0xFE513FA3 [(2, 0x80100000)] []]

theorem witness_DecodeOfEncodeIsIdentity : (Instr.jal 31 (-1048576)).wf = true ∧ (Instr.beq 0 31 4094).wf = true ∧
    (Instr.systemNop 0 0 2).wf = true ∧ (Instr.remu 1 2 3).wf = true := by decide

theorem witness_EncodeOfDecodeIsIdentity : decodeWord .op32 0x0220D1BB = some (.divu 3 1 2) ∧
    decodeWord .op 0x0220D1B3 = some (.divu 3 1 2) := by decide

theorem witness_ImmediateBitPositions : ∀ k ∈ [0, 4, 5, 10, 11, 12, 19, 20, 30, 31, 63], k < 64 := by decide

theorem witness_DivremOpcodeSelectsFamily :
    (opcodeOf 0x0220D1BB = 0b0111011#7 ∧ funct3Of 0x0220D1BB = 0b101#3 ∧ funct7Of 0x0220D1BB = 0b0000001#7) ∧
    (opcodeOf 0x0220D1B3 = 0b0110011#7 ∧ funct3Of 0x0220D1B3 = 0b101#3 ∧ funct7Of 0x0220D1B3 = 0b0000001#7) ∧
    (opcodeOf 0x0220F1BB = 0b0111011#7 ∧ funct3Of 0x0220F1BB = 0b111#3 ∧ funct7Of 0x0220F1BB = 0b0000001#7) ∧
    (opcodeOf 0x0220F1B3 = 0b0110011#7 ∧ funct3Of 0x0220F1B3 = 0b111#3 ∧ funct7Of 0x0220F1B3 = 0b0000001#7) := by
  decide

theorem witness_SystemWordTraceName :
    (opcodeOf 0x00000473 = 0b1110011#7 ∧ decodeWord .op32 0x00000473 = some (.systemNop 8 0 0)) ∧
    (opcodeOf 0x00100073 = 0b1110011#7 ∧ decodeWord .op32 0x00100073 = some .ebreak) ∧
    (opcodeOf 0x30200073 = 0b1110011#7 ∧ decodeWord .op32 0x30200073 = some (.systemNop 0 0 0x302)) := by decide

/-- At the first and at the last word of memory. -/
theorem witness_StepRunsDecodedInstruction :
    (nopState.run = .running ∧ nopState.pc.toNat % 4 = 0 ∧ 0x80000000 ≤ nopState.pc.toNat ∧
      nopState.pc.toNat + 4 ≤ 0x80100000 ∧ nopState.mem.readByte nopState.pc.toNat = 0x13 ∧
      nopState.mem.readByte (nopState.pc.toNat + 1) = 0 ∧ nopState.mem.readByte (nopState.pc.toNat + 2) = 0 ∧
      nopState.mem.readByte (nopState.pc.toNat + 3) = 0 ∧
      decodeWord .op32 (0#8 ++ 0#8 ++ 0#8 ++ 0x13#8) = some (.addi 0 0 0)) ∧
    (let s := start 0x800FFFFC [] [(0x800FFFF8, 0x0000001300000000)]; s.run = .running ∧
      s.pc.toNat % 4 = 0 ∧ 0x80000000 ≤ s.pc.toNat ∧ s.pc.toNat + 4 ≤ 0x80100000 ∧
      s.mem.readByte s.pc.toNat = 0x13) := by decide

/-- Misaligned; aligned on both sides of memory; the first and the last word of memory. -/
theorem witness_FetchStage :
    ((start 0x80000002 [] []).run = .running ∧ (start 0x80000002 [] []).pc.toNat % 4 ≠ 0) ∧
    (∀ a ∈ [0x7FFFFFFC, 0x80100000, 0xFFFFFFFFFFFFFFFC], (start a [] []).run = .running ∧
      (start a [] []).pc.toNat % 4 = 0 ∧
      ¬ (0x80000000 ≤ (start a [] []).pc.toNat ∧ (start a [] []).pc.toNat + 4 ≤ 0x80100000)) ∧
    (∀ a ∈ [0x80000000, 0x800FFFFC], (start a [] []).run = .running ∧ (start a [] []).pc.toNat % 4 = 0 ∧
      0x80000000 ≤ (start a [] []).pc.toNat ∧ (start a [] []).pc.toNat + 4 ≤ 0x80100000) := by decide

/-- Under the alternative configuration: DIVU's OP word is legal, its OP-32 word Illegal. -/
theorem witness_StepRunsDecodedInstruction_everyConfiguration :
    (let s := one 0x0220D1B3 [] []; s.run = .running ∧ s.pc.toNat % 4 = 0 ∧ alternative.memBase ≤ s.pc.toNat ∧
      s.pc.toNat + 4 ≤ alternative.memBase + alternative.memSize ∧ s.mem.readByte s.pc.toNat = 0xB3 ∧
      s.mem.readByte (s.pc.toNat + 1) = 0xD1 ∧ s.mem.readByte (s.pc.toNat + 2) = 0x20 ∧
      s.mem.readByte (s.pc.toNat + 3) = 0x02 ∧
      decodeWord alternative.divremOpcode (0x02#8 ++ 0x20#8 ++ 0xD1#8 ++ 0xB3#8) = some (.divu 3 1 2)) ∧
    decodeWord alternative.divremOpcode (0x02#8 ++ 0x20#8 ++ 0xD1#8 ++ 0xBB#8) = none := by decide

theorem witness_IllegalWordHalts : (one 0x17 [] []).run = .running ∧ fetch reference (one 0x17 [] []) = .ok 0x17 ∧
    decodeWord .op32 0x17 = none := ⟨rfl, rfl, by decide⟩

theorem witness_HaltedStepChangesNothing : haltedState.run = .halted ∧
    haltedState.haltRecord = some (illegalRecord 0x80000000 0) := by decide

/-- Two steps of a program of two `nop`s. -/
theorem witness_SafeRunsAreSafeThroughout : SafeFor (1 + 1) (one 0x0000001300000013 [] []) := ⟨_, rfl, rfl⟩

/-- A RUNNING state with a next state, and a HALTED one. -/
theorem witness_StepKeepsInvariant :
    nopState.Inv reference ∧ after (step nopState) (fun t => t.run == .running) = true ∧
    haltedState.Inv reference ∧ after (step haltedState) (fun t => t.run == .halted) = true :=
  ⟨by decide, by decide, by decide, by decide⟩

theorem witness_StepKeepsInvariantForEveryConfiguration : alternative.Valid ∧
    nopState.Inv alternative ∧ after (stepWith alternative nopState) (fun t => t.run == .running) = true := by
  refine ⟨?_, by decide, by decide⟩
  unfold Config.Valid; decide

/-- The reference configuration with the empty image, and the smallest region with an image that fills it. -/
theorem witness_BootMeetsInvariant : reference.Valid ∧ (boot reference []).isSome ∧
    Config.Valid { reference with memSize := 8 } ∧
    (boot { reference with memSize := 8 } [1, 2, 3, 4, 5, 6, 7, 8]).isSome := by
  unfold Config.Valid; decide

theorem witness_EveryReachedStateMeetsInvariant : nopState.Inv reference ∧
    after (Host.Core.run Sys2Proof.core 2 nopState) (fun t => t.run == .halted) = true := ⟨by decide, by decide⟩

theorem witness_PcStaysAligned : nopState.pc.toNat % 4 = 0 ∧
    after (step nopState) (fun t => t.run == .running) = true := by decide

theorem witness_X0IsHardwiredToZero : (31 : Reg) ≠ 0 ∧ nopState.run = .running ∧
    after (step nopState) (fun t => t.run == .running) = true := by decide

/-- Every kind of record. -/
theorem witness_HaltIsPrecise :
    haltingStates.all (fun s => s.run == .running && after (step s) (fun t => t.run == .halted)) = true := by decide

theorem witness_HaltRecordFields : haltingStates.all (fun s => s.run == .running &&
    after (step s) (fun t => t.run == .halted && t.haltRecord.isSome)) = true := by decide

theorem witness_InvalidAccessSizeOnlyAtTheBus :
    (∀ n ∈ [0#8, 7#8, 24#8, 63#8, 128#8], ¬ (n = 8 ∨ n = 16 ∨ n = 32 ∨ n = 64)) ∧
    haltingStates.all (fun s => s.run == .running &&
      after (step s) (fun t => t.run == .halted && t.haltRecord.isSome)) = true := by decide

theorem witness_OnlyJumpsAndTakenBranchesRedirect :
    (nopState.run = .running ∧ nextInstr reference nopState = some (.addi 0 0 0) ∧
      after (step nopState) (fun t => t.pc == 0x80000004) = true) ∧
    (nextInstr reference (one 0x00000063 [] []) = some (.beq 0 0 0) ∧
      after (step (one 0x00000063 [] [])) (fun t => t.pc == 0x80000000) = true) ∧
    (nextInstr reference (one 0 [] []) = none ∧
      after (step (one 0 [] [])) (fun t => t.pc == 0x80000004) = true) := by decide

theorem witness_OnlyStoresChangeMemory :
    let s := one 0x00513023 [(2, 0x800FFFF8), (5, 7)] []
    s.run = .running ∧ after (step s) (fun t => t.mem != s.mem) = true := by decide

theorem witness_OnlyDestinationChanges :
    after (exec (.add 3 1 2) (start 0 [(1, 3), (2, 4)] [])) (fun t => t.readReg 3 == 7) = true ∧
    (start 0 [(1, 3), (2, 4)] []).readReg 3 ≠ 7 := by decide

/-- Two states that differ in x9, which the instruction does not read. -/
theorem witness_OnlySourcesAreRead :
    let s := start 0x80000000 [(1, 3), (2, 4)] []
    let s' := start 0x80000000 [(1, 3), (2, 4), (9, 1)] []
    s.run = .running ∧ s'.run = .running ∧ s.haltRecord = s'.haltRecord ∧ s.pc = s'.pc ∧ s.mem = s'.mem ∧
    (∀ r ∈ sources (.add 3 1 2), s.readReg r = s'.readReg r) ∧ s ≠ s' ∧
    after (exec (.add 3 1 2) s) (fun t => t.run == .running) = true ∧
    after (exec (.add 3 1 2) s') (fun t => t.run == .running) = true := by decide

theorem witness_DestinationX0ExecutesFully : destination (.ld 0 2 0) = some 0 ∧
    after (exec (.ld 0 2 0) (start 0x80000000 [(2, 0x800FFFF8)] [])) (fun t => t.run == .running) = true := by decide

theorem witness_JalLinksAndJumps :
    ((start 0x80000000 [] []).pc + (-8 : BitVec 21).signExtend 64).toNat % 4 = 0 ∧
    ((start 0x80000000 [] []).pc + (1048574 : BitVec 21).signExtend 64).toNat % 4 ≠ 0 := by decide

/-- Sums with bit 1 clear, bit 0 set, and with bit 1 set, bit 0 set and clear. -/
theorem witness_JalrLinksAndJumps :
    ((start 0 [(1, 0x80000100)] []).readReg 1 + (1 : BitVec 12).signExtend 64).getLsbD 1 = false ∧
    ((start 0 [(5, 0x80000001)] []).readReg 5 + (2 : BitVec 12).signExtend 64).getLsbD 1 = true ∧
    ((start 0 [(5, 0x80000000)] []).readReg 5 + (2 : BitVec 12).signExtend 64).getLsbD 1 = true := by decide

/-- An aligned target, and (V22) a misaligned one, which halts under either funct3. -/
theorem witness_JalrIgnoresFunct3 : opcodeOf 0x0000F067 = 0b1100111#7 ∧
    TargetAligned (jalrTarget (start 0 [(1, 0x80000008)] []) 1 0) ∧
    ¬ TargetAligned (jalrTarget (start 0 [(5, 0x80000000)] []) 5 2) ∧
    after (exec (.jalr 0 5 2 7) (start 0x80000000 [(5, 0x80000000)] [])) (fun t => t.run == .halted) = true := by
  decide

/-- Taken and aligned; untaken with a misaligned offset; taken and misaligned. -/
theorem witness_BeqBranchesIfEqual :
    (let s := start 0x80001000 [(1, 7), (2, 7)] []; s.readReg 1 = s.readReg 2 ∧
      (s.pc + (-4096 : BitVec 13).signExtend 64).toNat % 4 = 0) ∧
    (let s := start 0x80000000 [(1, 1), (2, 2)] []; s.readReg 1 ≠ s.readReg 2) ∧
    (let s := start 0x80000000 [(1, 7), (2, 7)] []; s.readReg 1 = s.readReg 2 ∧
      (s.pc + (4094 : BitVec 13).signExtend 64).toNat % 4 ≠ 0) := by decide

theorem witness_JalThenJalrResumesAfterJal : (1 : Reg) ≠ 0 ∧ (start 0x80000000 [] []).pc.toNat % 4 = 0 ∧
    ((start 0x80000000 [] []).pc + (8 : BitVec 21).signExtend 64).toNat % 4 = 0 := by decide

/-- The effective address of a zero offset from x2. -/
abbrev base (b : Word) : Word := (start 0 [(2, b)] []).readReg 2 + (0 : BitVec 12).signExtend 64

/-- The first and the last doubleword of memory. -/
theorem witness_LdLoadsDoubleword :
    ((base 0x80000000).toNat % 8 = 0 ∧ 0x80000000 ≤ (base 0x80000000).toNat ∧
      (base 0x80000000).toNat + 8 ≤ 0x80100000) ∧
    ((base 0x800FFFF8).toNat % 8 = 0 ∧ 0x80000000 ≤ (base 0x800FFFF8).toNat ∧
      (base 0x800FFFF8).toNat + 8 ≤ 0x80100000) := by decide

/-- With an offset of −8, at the first doubleword and from the reset stack pointer. -/
theorem witness_SdStoresDoubleword :
    (let a : Word := (start 0 [(2, 0x80000008), (6, 9)] []).readReg 2 + (-8 : BitVec 12).signExtend 64;
      a.toNat % 8 = 0 ∧ 0x80000000 ≤ a.toNat ∧ a.toNat + 8 ≤ 0x80100000) ∧
    (let a : Word := (start 0 [(2, 0x80100000), (6, 9)] []).readReg 2 + (-8 : BitVec 12).signExtend 64;
      a.toNat % 8 = 0 ∧ 0x80000000 ≤ a.toNat ∧ a.toNat + 8 ≤ 0x80100000) := by decide

/-- Misaligned in bounds and out of bounds; aligned and out of bounds below, above, and at the end of the space. -/
theorem witness_DataAccessChecks :
    (base 0x800FFFFC).toNat % 8 ≠ 0 ∧ (base 0x80100001).toNat % 8 ≠ 0 ∧
    ((base 0x7FFFFFF8).toNat % 8 = 0 ∧
      ¬ (0x80000000 ≤ (base 0x7FFFFFF8).toNat ∧ (base 0x7FFFFFF8).toNat + 8 ≤ 0x80100000)) ∧
    ((base 0x80100000).toNat % 8 = 0 ∧
      ¬ (0x80000000 ≤ (base 0x80100000).toNat ∧ (base 0x80100000).toNat + 8 ≤ 0x80100000)) ∧
    ((base 0xFFFFFFFFFFFFFFF8).toNat % 8 = 0 ∧ ¬ (0x80000000 ≤ (base 0xFFFFFFFFFFFFFFF8).toNat ∧
      (base 0xFFFFFFFFFFFFFFF8).toNat + 8 ≤ 0x80100000)) := by decide

/-- In bounds: perform at a misaligned address and at the last address, halt at an aligned one. Out of bounds: perform at
V44's and V52's misaligned addresses, halt at an aligned one. Misaligned under halt. -/
theorem witness_MisalignedDataParameter :
    (alternative.misalignedData = .perform ∧ alternative.memBase ≤ (base 0x80000104).toNat ∧
      (base 0x80000104).toNat + 8 ≤ alternative.memBase + alternative.memSize) ∧
    (alternative.memBase ≤ (base 0x800FFFF8).toNat ∧
      (base 0x800FFFF8).toNat + 8 ≤ alternative.memBase + alternative.memSize) ∧
    ((base 0x800FFFF8).toNat % 8 = 0 ∧ reference.memBase ≤ (base 0x800FFFF8).toNat ∧
      (base 0x800FFFF8).toNat + 8 ≤ reference.memBase + reference.memSize) ∧
    ¬ (alternative.memBase ≤ (base 0x800FFFFC).toNat ∧
      (base 0x800FFFFC).toNat + 8 ≤ alternative.memBase + alternative.memSize) ∧
    ¬ (alternative.memBase ≤ (base 0x800FFFFF).toNat ∧
      (base 0x800FFFFF).toNat + 8 ≤ alternative.memBase + alternative.memSize) ∧
    ((base 0x80100000).toNat % 8 = 0 ∧ ¬ (reference.memBase ≤ (base 0x80100000).toNat ∧
      (base 0x80100000).toNat + 8 ≤ reference.memBase + reference.memSize)) ∧
    (reference.misalignedData = .halt ∧ (base 0x800FFFFF).toNat % 8 ≠ 0) := by decide

theorem witness_StoreThenLoadReturnsValue :
    let a : Word := (start 0 [(2, 0x80100000), (6, 9)] []).readReg 2 + (-8 : BitVec 12).signExtend 64
    a.toNat % 8 = 0 ∧ 0x80000000 ≤ a.toNat ∧ a.toNat + 8 ≤ 0x80100000 := by decide

/-- As in program P5: pc + 4 is the store's address. -/
theorem witness_StoreIsSeenByNextFetch :
    let s := start 0x8000000C [(1, 0x80000004), (5, 0x00500093)] []
    s.pc + 4 = s.readReg 1 + (12 : BitVec 12).signExtend 64 ∧ (s.pc + 4).toNat % 8 = 0 ∧
    0x80000000 ≤ (s.pc + 4).toNat ∧ (s.pc + 4).toNat + 8 ≤ 0x80100000 := by decide

/-- The store's address is pc_this: its high half is the next word; at the last doubleword of memory. -/
theorem witness_StoreIsSeenByNextFetch_high :
    let s := start 0x800FFFF8 [(1, 0x800FFFF8)] []
    s.pc = s.readReg 1 + (0 : BitVec 12).signExtend 64 ∧ (s.pc + 4).toNat % 8 = 4 ∧
    0x80000000 ≤ s.pc.toNat ∧ s.pc.toNat + 8 ≤ 0x80100000 := by decide

/-- Under perform, a misaligned store over the low two bytes of the next word. -/
theorem witness_StoreIsSeenByNextFetch_everyConfiguration :
    let s := start 0x80000100 [(2, 0x800000FE)] []
    let a : Word := s.readReg 2 + (0 : BitVec 12).signExtend 64
    alternative.misalignedData = .perform ∧ alternative.memBase ≤ a.toNat ∧
    a.toNat + 8 ≤ alternative.memBase + alternative.memSize ∧ (s.pc + 4).toNat % 4 = 0 ∧
    alternative.memBase ≤ (s.pc + 4).toNat ∧ (s.pc + 4).toNat + 4 ≤ alternative.memBase + alternative.memSize ∧
    a.toNat ≤ (s.pc + 4).toNat + 1 ∧ (s.pc + 4).toNat + 1 < a.toNat + 8 ∧
    ¬ ((s.pc + 4).toNat + 2 < a.toNat + 8) := by decide

/-- A size that is refused; accepted sizes at both ends of memory, one byte out and just inside. -/
theorem witness_BusLoad : ¬ ((24#8 : BitVec 8) = 8 ∨ (24#8 : BitVec 8) = 16 ∨ (24#8 : BitVec 8) = 32 ∨
      (24#8 : BitVec 8) = 64) ∧
    ¬ (reference.memBase ≤ (0x800FFFF9 : Word).toNat ∧
      (0x800FFFF9 : Word).toNat + (64#8).toNat / 8 ≤ reference.memBase + reference.memSize) ∧
    (reference.memBase ≤ (0x800FFFF8 : Word).toNat ∧
      (0x800FFFF8 : Word).toNat + (64#8).toNat / 8 ≤ reference.memBase + reference.memSize) ∧
    (reference.memBase ≤ (0x800FFFFF : Word).toNat ∧
      (0x800FFFFF : Word).toNat + (8#8).toNat / 8 ≤ reference.memBase + reference.memSize) := by decide

theorem witness_BusStore : ¬ ((0#8 : BitVec 8) = 8 ∨ (0#8 : BitVec 8) = 16 ∨ (0#8 : BitVec 8) = 32 ∨
      (0#8 : BitVec 8) = 64) ∧
    ¬ (reference.memBase ≤ (0x7FFFFFFF : Word).toNat ∧
      (0x7FFFFFFF : Word).toNat + (16#8).toNat / 8 ≤ reference.memBase + reference.memSize) ∧
    (reference.memBase ≤ (0x80000000 : Word).toNat ∧
      (0x80000000 : Word).toNat + (16#8).toNat / 8 ≤ reference.memBase + reference.memSize) := by decide

theorem witness_MixedWidthSeesLittleEndianBytes : reference.Valid ∧
    ∃ m', memWrite reference [] 0x800FFFF8 64 0x1122334455667788 = .ok m' := by
  refine ⟨?_, _, rfl⟩
  unfold Config.Valid; decide

theorem witness_StoreKeepsCanonicalMemory : Memory.wf [(0x80000000, 1)] ∧
    Memory.inRegion reference [(0x80000000, 1)] ∧
    memWrite reference [(0x80000000, 1)] 0x80000000 8 0 = .ok [] := ⟨by decide, by decide, rfl⟩

/-- A zero and a nonzero divisor. -/
theorem witness_DivuResult : (start 0 [(1, 100)] []).readReg 2 = 0 ∧ (start 0 [(1, 100), (2, 7)] []).readReg 2 ≠ 0 := by
  decide

theorem witness_RemuResult : (start 0 [(1, 100)] []).readReg 2 = 0 ∧ (start 0 [(1, 100), (2, 1)] []).readReg 2 ≠ 0 := by
  decide

theorem witness_SystemNoOps : opcodeOf 0x00000473 = 0b1110011#7 ∧ funct3Of 0x00000473 = 0b000#3 ∧
    Instr.ebreak ∈ [Instr.ecall, Instr.ebreak, Instr.systemNop 8 0 0] := by decide

theorem witness_OtherSystemWordsAreIllegal : (one 0x00004073 [] []).run = .running ∧
    fetch reference (one 0x00004073 [] []) = .ok 0x00004073 ∧ opcodeOf 0x00004073 = 0b1110011#7 ∧
    funct3Of 0x00004073 ≠ 0b000#3 := ⟨rfl, rfl, by decide, by decide⟩

theorem witness_ResetLeavesTheTable : (1 : Reg) ≠ 0 ∧ (1 : Reg) ≠ 2 ∧ (31 : Reg) ≠ 0 ∧ (31 : Reg) ≠ 2 := by decide

/-- An image one byte too long, and one that fits. -/
theorem witness_BootLoadsImage :
    Config.memSize { reference with memSize := 8 } < ([1, 2, 3, 4, 5, 6, 7, 8, 9] : List Byte).length ∧
    ([0x93, 0x80] : List Byte).length ≤ reference.memSize := by decide

/-- Both ends of the range, and both sides of the short form. -/
theorem witness_LiExpansionLoadsImmediate : (5 : Reg) ≠ 0 ∧
    ∀ imm ∈ ([-2147483648, -2049, 2048, 0x7FFFF7FF] : List Int), -2147483648 ≤ imm ∧ imm < 0x7FFFF800 ∧
      ¬ (-2048 ≤ imm ∧ imm ≤ 2047) := by decide

/-- The encoding clauses, on V1, V10, V24, V30 and the BNE word V136, V60 and the SLLI word V139, V62, V64, V80, V83. -/
theorem witness_encoding_clauses :
    opcodeOf 0xABCDE0B7 = 0b0110111#7 ∧ opcodeOf 0x008000EF = 0b1101111#7 ∧ opcodeOf 0x0000F067 = 0b1100111#7 ∧
    (opcodeOf 0x00208863 = 0b1100011#7 ∧ funct3Of 0x00208863 = 0b000#3) ∧
    (opcodeOf 0x00001063 = 0b1100011#7 ∧ funct3Of 0x00001063 ≠ 0b000#3) ∧
    (opcodeOf 0xFFF08093 = 0b0010011#7 ∧ funct3Of 0xFFF08093 = 0b000#3) ∧
    (opcodeOf 0x00001013 = 0b0010011#7 ∧ funct3Of 0x00001013 ≠ 0b000#3) ∧
    (opcodeOf 0x002081B3 = 0b0110011#7 ∧ funct3Of 0x002081B3 = 0b000#3 ∧ funct7Of 0x002081B3 = 0b0000000#7) ∧
    (opcodeOf 0x402081B3 = 0b0110011#7 ∧ funct3Of 0x402081B3 = 0b000#3 ∧ funct7Of 0x402081B3 = 0b0100000#7) ∧
    (opcodeOf 0x022081B3 = 0b0110011#7 ∧ funct3Of 0x022081B3 = 0b000#3 ∧ funct7Of 0x022081B3 = 0b0000001#7) ∧
    (opcodeOf 0x0020B1B3 = 0b0110011#7 ∧ funct3Of 0x0020B1B3 = 0b011#3 ∧ funct7Of 0x0020B1B3 = 0b0000000#7) := by
  decide

end Sys2Proof.Tests
end

/-!
PROOF. What writes the pc (spec/10_state.md R24): the step of a RUNNING core by the instruction it executes, the pc an
instruction leaves, and O25 from the two.
-/
namespace Sys2Proof.Machine

/-! ## The next instruction, tied to the step -/

/-- A RUNNING core whose fetch succeeds executes what the fetched word decodes to. -/
theorem nextInstr_of_fetch_ok {cfg : Config} {s : State} {w : InstrWord} (hr : s.run = .running)
    (hf : fetch cfg s = .ok w) : nextInstr cfg s = decodeWord cfg.divremOpcode w := by
  unfold nextInstr; rw [hr, hf]

/-- After a fetch condition no instruction is executed. -/
theorem nextInstr_of_fetch_error {cfg : Config} {s : State} {r : HaltRecord} (hf : fetch cfg s = .error r) :
    nextInstr cfg s = none := by
  unfold nextInstr; rw [hf]; cases s.run <;> rfl

/-- A step that executes an instruction is that instruction's meaning after stage 1. -/
theorem step_eq_exec_of_nextInstr {s : State} {i : Instr} (hr : s.run = .running)
    (hi : nextInstr reference s = some i) : step s = exec i s.zeroX0 := by
  cases hf : fetch reference s with
  | error r => simp [nextInstr_of_fetch_error hf] at hi
  | ok w => exact cycle_handled hr hf (nextInstr_of_fetch_ok hr hf ▸ hi)

/-- A step of a RUNNING core that executes no instruction leaves the pc, or (at an Illegal word) only advances it. -/
theorem step_pc_of_nextInstr_none {s t : State} (hr : s.run = .running) (hi : nextInstr reference s = none)
    (h : step s = .next t) : t.pc = s.pc ∨ t.pc = s.pc + 4#64 := by
  cases cycle_effect hr h with
  | fetchHalt r _ ht => left; simp [ht]
  | illegal w _ _ ht => right; simp [ht]
  | handled w i hf hd _ => simp [nextInstr_of_fetch_ok hr hf, hd] at hi

/-! ## The pc an instruction leaves -/

/-- The pc after an instruction is the advanced one, or the target of a JAL, a JALR or a taken BEQ. -/
theorem ExecEffect.pc_cases {cfg : Config} {i : Instr} {s t : State} (h : ExecEffect cfg i s t) :
    t.pc = s.pc + 4#64 ∨
    (∃ rd offset, i = .jal rd offset ∧ t.pc = jalTarget s.pc offset) ∨
    (∃ rd rs1 imm f3, i = .jalr rd rs1 imm f3 ∧ t.pc = jalrTarget s rs1 imm) ∨
    (∃ rs1 rs2 offset, i = .beq rs1 rs2 offset ∧ s.readReg rs1 = s.readReg rs2 ∧
      t.pc = beqTarget s.pc offset) := by
  cases h with
  | jal rd offset hi => exact .inr (.inl ⟨rd, offset, hi, rfl⟩)
  | jalr rd rs1 imm f3 hi => exact .inr (.inr (.inl ⟨rd, rs1, imm, f3, hi, rfl⟩))
  | taken rs1 rs2 offset hi he => exact .inr (.inr (.inr ⟨rs1, rs2, offset, hi, he, rfl⟩))
  | wrote | advanced | stored | badTarget | badAccess => left; simp

/-- Settles O25: an instruction's effects write the pc in no other way, a step without an instruction only halts, and
reset() sets it to B. -/
theorem onlyJumpsAndTakenBranchesRedirect : Obligations.OnlyJumpsAndTakenBranchesRedirect := by
  refine ⟨fun s t i hr hi h => ?_, fun s t hr hi h => step_pc_of_nextInstr_none hr hi h, fun s => ?_⟩
  · rw [step_eq_exec_of_nextInstr hr hi] at h
    simpa [jalTarget, jalrTarget, beqTarget, immI, immB, immJ] using (exec_effect h).pc_cases
  · rw [State.resetMachine, State.resetOf_pc]; rfl

end Sys2Proof.Machine

/-!
PROOF. The bits of the five immediates (spec/30_encoding.md R58 to R62): those of each format's assembled field, those
of its 64-bit value, and O5 from the five.
-/
namespace Sys2Proof

/-- Sign extension to a word: the field's own bits, then copies of its top bit. -/
theorem getLsbD_signExtend_word {n k : Nat} (x : BitVec n) (hk : k < 64) :
    (x.signExtend 64).getLsbD k = if k < n then x.getLsbD k else x.getLsbD (n - 1) := by
  rw [BitVec.getLsbD_signExtend, BitVec.msb_eq_getLsbD_last, decide_eq_true hk, Bool.true_and]

/-! ## The assembled fields, bit by bit -/

theorem fieldI_getLsbD (w : InstrWord) {k : Nat} (hk : k < 12) : (fieldI w).getLsbD k = w.getLsbD (k + 20) := by
  simp [fieldI, hk, Nat.add_comm]

theorem fieldS_getLsbD (w : InstrWord) {k : Nat} (hk : k < 12) :
    (fieldS w).getLsbD k = if k < 5 then w.getLsbD (k + 7) else w.getLsbD (k + 20) := by
  simp only [fieldS, BitVec.getLsbD_append, BitVec.getLsbD_extractLsb']
  grind

theorem fieldB_getLsbD (w : InstrWord) {k : Nat} (hk : k < 13) :
    (fieldB w).getLsbD k =
      if k = 0 then false else if k < 5 then w.getLsbD (k + 7) else if k < 11 then w.getLsbD (k + 20)
      else if k = 11 then w.getLsbD 7 else w.getLsbD 31 := by
  simp only [fieldB, BitVec.getLsbD_append, BitVec.getLsbD_extractLsb', BitVec.getLsbD_zero]
  grind

theorem fieldU_shifted_getLsbD (w : InstrWord) {k : Nat} (hk : k < 32) :
    (fieldU w ++ 0#12).getLsbD k = if k < 12 then false else w.getLsbD k := by
  simp only [fieldU, BitVec.getLsbD_append, BitVec.getLsbD_extractLsb', BitVec.getLsbD_zero]
  grind

theorem fieldJ_getLsbD (w : InstrWord) {k : Nat} (hk : k < 21) :
    (fieldJ w).getLsbD k =
      if k = 0 then false else if k < 11 then w.getLsbD (k + 20) else if k = 11 then w.getLsbD 20
      else if k < 20 then w.getLsbD k else w.getLsbD 31 := by
  simp only [fieldJ, BitVec.getLsbD_append, BitVec.getLsbD_extractLsb', BitVec.getLsbD_zero]
  grind

/-! ## Their 64-bit values

In each proof the first case is a bit of the field itself, the second one a copy of the field's top bit, which in every
format is bit 31 of the word. -/

theorem immIOf_getLsbD (w : InstrWord) {k : Nat} (hk : k < 64) :
    (immIOf w).getLsbD k = if k < 11 then w.getLsbD (k + 20) else w.getLsbD 31 := by
  rw [immIOf, immI, getLsbD_signExtend_word _ hk]
  split
  · rw [fieldI_getLsbD w ‹_›]; grind
  · rw [fieldI_getLsbD w (by decide)]; grind

theorem immSOf_getLsbD (w : InstrWord) {k : Nat} (hk : k < 64) :
    (immSOf w).getLsbD k =
      if k < 5 then w.getLsbD (k + 7) else if k < 11 then w.getLsbD (k + 20) else w.getLsbD 31 := by
  rw [immSOf, immS, getLsbD_signExtend_word _ hk]
  split
  · rw [fieldS_getLsbD w ‹_›]; grind
  · rw [fieldS_getLsbD w (by decide)]; grind

theorem immBOf_getLsbD (w : InstrWord) {k : Nat} (hk : k < 64) :
    (immBOf w).getLsbD k =
      if k = 0 then false else if k < 5 then w.getLsbD (k + 7) else if k < 11 then w.getLsbD (k + 20)
      else if k = 11 then w.getLsbD 7 else w.getLsbD 31 := by
  rw [immBOf, immB, getLsbD_signExtend_word _ hk]
  split
  · exact fieldB_getLsbD w ‹_›
  · rw [fieldB_getLsbD w (by decide)]; grind

theorem immUOf_getLsbD (w : InstrWord) {k : Nat} (hk : k < 64) :
    (immUOf w).getLsbD k = if k < 12 then false else if k < 31 then w.getLsbD k else w.getLsbD 31 := by
  rw [immUOf, immU, getLsbD_signExtend_word _ hk]
  split
  · rw [fieldU_shifted_getLsbD w ‹_›]; grind
  · rw [fieldU_shifted_getLsbD w (by decide)]; grind

theorem immJOf_getLsbD (w : InstrWord) {k : Nat} (hk : k < 64) :
    (immJOf w).getLsbD k =
      if k = 0 then false else if k < 11 then w.getLsbD (k + 20) else if k = 11 then w.getLsbD 20
      else if k < 20 then w.getLsbD k else w.getLsbD 31 := by
  rw [immJOf, immJ, getLsbD_signExtend_word _ hk]
  split
  · exact fieldJ_getLsbD w ‹_›
  · rw [fieldJ_getLsbD w (by decide)]; grind

/-- Settles O5, format by format. -/
theorem immediateBitPositions : Obligations.ImmediateBitPositions := fun w _ hk =>
  ⟨immIOf_getLsbD w hk, immSOf_getLsbD w hk, immBOf_getLsbD w hk, immUOf_getLsbD w hk, immJOf_getLsbD w hk⟩

end Sys2Proof

/-!
PROOF. LUI, JAL and JALR (spec/41_upper_and_jumps.md): the two answers of the link and jump that JAL and JALR share, and
O30, O31 and O32 from them, the decoder's arms and the targets' alignment.
-/
namespace Sys2Proof.Machine

theorem exec_lui (rd : Reg) (imm : BitVec 20) (s : State) :
    exec (.lui rd imm) s = .next ((s.writeReg rd (immU imm)).advancePc) := rfl

theorem exec_jal (rd : Reg) (offset : BitVec 21) (s : State) :
    exec (.jal rd offset) s = jumpAndLink (encode (.jal rd offset)) rd (jalTarget s.pc offset) s := rfl

theorem exec_jalr (rd rs1 : Reg) (imm : BitVec 12) (f3 : BitVec 3) (s : State) :
    exec (.jalr rd rs1 imm f3) s =
      jumpAndLink (encode (.jalr rd rs1 imm f3)) rd (jalrTarget s rs1 imm) s := rfl

/-- JALR's target with the complement of bit 0 (R91) as a literal mask. -/
theorem jalrTarget_eq_mask (s : State) (rs1 : Reg) (imm : BitVec 12) :
    jalrTarget s rs1 imm = (s.readReg rs1 + imm.signExtend 64) &&& 0xFFFFFFFFFFFFFFFE#64 := rfl

/-! ## Link and jump -/

section
variable {rd : Reg} {target : Word} {s : State} (word : InstrWord)

/-- An aligned target: rd holds the return address, the pc is the target, and nothing else changes. -/
theorem jumpAndLink_aligned (h : TargetAligned target) :
    ∃ t, jumpAndLink word rd target s = .next t ∧ s.RegWritten t rd (s.pc + 4#64) ∧ t.pc = target ∧
      t.mem = s.mem ∧ s.SameRun t :=
  ⟨_, if_pos h, fun r => by rw [State.readReg_setPc, State.readReg_writeReg, returnAddress], by simp, by simp,
    by simp [State.SameRun]⟩

/-- A misaligned target: AddressMisaligned of kind jump after the advance, and nothing is written (R116). -/
theorem jumpAndLink_misaligned (h : ¬ TargetAligned target) :
    ∃ t, jumpAndLink word rd target s = .next t ∧
      s.HaltedWith t (targetRecord .jump s.pc word target) (s.pc + 4#64) :=
  ⟨_, if_neg h, s.haltedWith_raise _⟩

end

/-! ## The obligations -/

/-- Settles O31: JAL is the link and jump to pc_this + imm_J, whose alignment is the target modulo 4. -/
theorem jalLinksAndJumps : Obligations.JalLinksAndJumps := by
  refine ⟨fun d w h => decodeWord_of_decoded (.jal h), fun rd offset s => ⟨fun ha => ?_, fun ha => ?_⟩⟩ <;>
    rw [exec_jal]
  · exact jumpAndLink_aligned _ ((targetAligned_iff _).mpr ha)
  · exact jumpAndLink_misaligned _ (mt (targetAligned_iff _).mp ha)

/-- Settles O32: JALR is the link and jump to the sum with bit 0 cleared, which is aligned exactly when bit 1 of the sum
is clear. -/
theorem jalrLinksAndJumps : Obligations.JalrLinksAndJumps := by
  refine ⟨fun d w h => decodeWord_of_decoded (.jalr h), fun rd rs1 imm f3 s => ⟨fun hb => ?_, fun hb => ?_⟩⟩ <;>
    rw [exec_jalr]
  · have ha : TargetAligned (jalrTarget s rs1 imm) := (jalrTarget_aligned_iff s rs1 imm).mpr hb
    obtain ⟨t, ht, hrd, hpc, hrest⟩ := jumpAndLink_aligned (rd := rd) (encode (.jalr rd rs1 imm f3)) ha
    exact ⟨t, ht, hrd, hpc ▸ jalrTarget_toNat s rs1 imm, hrest⟩
  · have ha : ¬ TargetAligned (jalrTarget s rs1 imm) := by simp [jalrTarget_aligned_iff, hb]
    rw [← jalrTarget_eq_mask]
    exact jumpAndLink_misaligned _ ha

/-- Settles O30: the decoder's LUI arm, and a retired write of the U-type immediate. -/
theorem luiWritesUpperImmediate : Obligations.LuiWritesUpperImmediate :=
  ⟨fun _ _ h => decodeWord_of_decoded (.lui h), fun rd imm s => ⟨_, exec_lui rd imm s, s.retired_writeReg rd _⟩⟩

end Sys2Proof.Machine

/-!
PROOF. BEQ (spec/42_branch.md R92): what the decoder makes of a BRANCH word, the three answers of the meaning, and O34
from the two.
-/
namespace Sys2Proof

/-- DIVREM_OPCODE names an opcode other than BRANCH (R66). -/
theorem opBranch_ne_divremOp (d : DivremOpcode) : opBranch ≠ divremOp d := by cases d <;> decide

/-- The only arm that answers a BRANCH word is BEQ's, and its key has funct3 = 000. -/
theorem Decoded.funct3_of_opBranch {d : DivremOpcode} {w : InstrWord} {i : Instr} (hd : Decoded d w i)
    (h : opcodeOf w = opBranch) : funct3Of w = 0b000#3 := by
  cases hd with
  | beq hk => exact hk.2
  | lui hk | jal hk | jalr hk => exact absurd (h.symm.trans hk) (by decide)
  | ld hk | sd hk | addi hk | system hk | add hk | sub hk | mul hk | sltu hk =>
    exact absurd (h.symm.trans hk.1) (by decide)
  | divu hk | remu hk => exact absurd (h.symm.trans hk.1) (opBranch_ne_divremOp d)

/-- A BRANCH word is BEQ under funct3 = 000 and Illegal under every other. -/
theorem decodeWord_opBranch (d : DivremOpcode) {w : InstrWord} (h : opcodeOf w = opBranch) :
    decodeWord d w = if funct3Of w = 0b000#3 then some (.beq (rs1Of w) (rs2Of w) (fieldB w)) else none := by
  split
  · exact decodeWord_of_decoded (.beq ⟨h, ‹_›⟩)
  · exact decodeWord_eq_none fun _ hd => absurd (hd.funct3_of_opBranch h) ‹_›

end Sys2Proof

namespace Sys2Proof.Machine

theorem exec_beq (rs1 rs2 : Reg) (offset : BitVec 13) (s : State) :
    exec (.beq rs1 rs2 offset) s = execBeq rs1 rs2 offset s := rfl

theorem equal64_iff (a b : Word) : equal64 a b ↔ a = b := beq_iff_eq

/-! ## The three answers of BEQ -/

section
variable {rs1 rs2 : Reg} {offset : BitVec 13} {s : State}

theorem exec_beq_taken (he : s.readReg rs1 = s.readReg rs2) (ha : TargetAligned (beqTarget s.pc offset)) :
    exec (.beq rs1 rs2 offset) s = .next (s.setPc (beqTarget s.pc offset)) := by
  rw [exec_beq, execBeq, if_pos ((equal64_iff _ _).mpr he), if_pos ha]

theorem exec_beq_misaligned (he : s.readReg rs1 = s.readReg rs2) (ha : ¬ TargetAligned (beqTarget s.pc offset)) :
    exec (.beq rs1 rs2 offset) s = .next (s.advancePc.raise
      (targetRecord .branch s.pc (encode (.beq rs1 rs2 offset)) (beqTarget s.pc offset))) := by
  rw [exec_beq, execBeq, if_pos ((equal64_iff _ _).mpr he), if_neg ha]

/-- An untaken branch does not check its target (D10). -/
theorem exec_beq_untaken (hne : s.readReg rs1 ≠ s.readReg rs2) :
    exec (.beq rs1 rs2 offset) s = .next s.advancePc := by
  rw [exec_beq, execBeq, if_neg (mt (equal64_iff _ _).mp hne)]

end

/-! ## The obligation -/

/-- Settles O34: the decoder's BRANCH words, then BEQ's answers at a taken aligned, an untaken and a taken misaligned
branch. -/
theorem beqBranchesIfEqual : Obligations.BeqBranchesIfEqual := by
  refine ⟨fun d w h => decodeWord_opBranch d h, fun rs1 rs2 offset s =>
    ⟨fun he ha => ?taken, fun hne => ?untaken, fun he ha => ?misaligned⟩⟩
  case taken => exact ⟨_, exec_beq_taken he ((targetAligned_iff _).mpr ha), rfl, rfl, rfl, rfl, rfl⟩
  case untaken => exact ⟨_, exec_beq_untaken hne, rfl, rfl, rfl, rfl, rfl⟩
  case misaligned => exact ⟨_, exec_beq_misaligned he (mt (targetAligned_iff _).mp ha), s.haltedWith_raise _⟩

end Sys2Proof.Machine

/-!
PROOF. The integer operations (spec/44_integer.md R99 to R103): what the decoder makes of an OP-IMM word, each
meaning's result as the exact value of its rule, and O46 to O50 from the decoder's arms and the two.
-/
namespace Sys2Proof

/-- An OP-IMM word is ADDI under funct3 = 000 and Illegal under every other: the remaining arms, DIVREM_OPCODE's under
either value among them, name another opcode. -/
theorem decodeWord_opOpImm (d : DivremOpcode) {w : InstrWord} (h : opcodeOf w = opOpImm) :
    decodeWord d w = if funct3Of w = 0b000#3 then some (.addi (rdOf w) (rs1Of w) (fieldI w)) else none := by
  by_cases hf : funct3Of w = 0b000#3
  · rw [if_pos hf, decodeWord_of_decoded (.addi ⟨h, hf⟩)]
  · cases d <;> simp [decodeWord, h, hf]

end Sys2Proof

namespace Sys2Proof.Machine

/-! ## The meanings -/

theorem exec_addi (rd rs1 : Reg) (imm : BitVec 12) (s : State) :
    exec (.addi rd rs1 imm) s = writeResult rd (s.readReg rs1 + immI imm) s := rfl

theorem exec_add (rd rs1 rs2 : Reg) (s : State) :
    exec (.add rd rs1 rs2) s = writeResult rd (s.readReg rs1 + s.readReg rs2) s := rfl

theorem exec_sub (rd rs1 rs2 : Reg) (s : State) :
    exec (.sub rd rs1 rs2) s = writeResult rd (s.readReg rs1 - s.readReg rs2) s := rfl

theorem exec_mul (rd rs1 rs2 : Reg) (s : State) :
    exec (.mul rd rs1 rs2) s = writeResult rd (mulLow (s.readReg rs1) (s.readReg rs2)) s := rfl

theorem exec_sltu (rd rs1 rs2 : Reg) (s : State) :
    exec (.sltu rd rs1 rs2) s = writeResult rd (boolWord (lessUnsigned (s.readReg rs1) (s.readReg rs2))) s := rfl

/-! ## Their results, exactly -/

/-- Adding words is adding their signed values, modulo 2^64. -/
theorem add_eq_ofInt (a b : Word) : a + b = BitVec.ofInt 64 (a.toInt + b.toInt) := by
  rw [BitVec.ofInt_add, BitVec.ofInt_toInt, BitVec.ofInt_toInt]

/-- The I-type immediate enters a sum with the signed value of its 12-bit field. -/
theorem add_immI_eq_ofInt (a : Word) (imm : BitVec 12) : a + immI imm = BitVec.ofInt 64 (a.toInt + imm.toInt) := by
  rw [BitVec.ofInt_add, BitVec.ofInt_toInt, immI, BitVec.signExtend]

/-- Subtracting words is subtracting their signed values, modulo 2^64. -/
theorem sub_eq_ofInt (a b : Word) : a - b = BitVec.ofInt 64 (a.toInt - b.toInt) := by
  rw [Int.sub_eq_add_neg, BitVec.ofInt_add, BitVec.ofInt_neg, BitVec.ofInt_toInt, BitVec.ofInt_toInt,
    BitVec.sub_eq_add_neg]

theorem mulLow_toNat (a b : Word) : (mulLow a b).toNat = (a.toNat * b.toNat) % 2 ^ 64 := BitVec.toNat_ofNat ..

/-- The low 64 bits of the product are the word product, which does not depend on how the operands are read. -/
theorem mulLow_eq_mul (a b : Word) : mulLow a b = a * b := BitVec.eq_of_toNat_eq (mulLow_toNat a b)

theorem mulLow_eq_ofInt (a b : Word) : mulLow a b = BitVec.ofInt 64 (a.toInt * b.toInt) := by
  rw [mulLow_eq_mul, BitVec.ofInt_mul, BitVec.ofInt_toInt, BitVec.ofInt_toInt]

theorem boolWord_lessUnsigned (a b : Word) : boolWord (lessUnsigned a b) = if a.toNat < b.toNat then 1 else 0 := by
  simp [boolWord, lessUnsigned]

/-! ## The obligations -/

/-- Settles O49: the decoder's MUL arm, and a retired write of the low product, as the unsigned and as the signed
operands give it. -/
theorem mulResult : Obligations.MulResult := by
  refine ⟨fun d w hop h3 h7 => decodeWord_of_decoded (.mul ⟨hop, h3, h7⟩), fun rd rs1 rs2 s => ?_⟩
  obtain ⟨t, ht, hret⟩ := writeResult_spec rd (mulLow (s.readReg rs1) (s.readReg rs2)) s
  exact ⟨t, _, exec_mul .. ▸ ht, hret, mulLow_toNat .., mulLow_eq_ofInt ..⟩

/-- Settles O46: the decoder's OP-IMM words, and a retired write of the sum with the immediate. -/
theorem addiResult : Obligations.AddiResult := by
  refine ⟨fun d w h => decodeWord_opOpImm d h, fun rd rs1 imm s => ?_⟩
  rw [exec_addi, add_immI_eq_ofInt]
  exact writeResult_spec ..

/-- Settles O47: the decoder's ADD arm, and a retired write of the sum. -/
theorem addResult : Obligations.AddResult := by
  refine ⟨fun d w hop h3 h7 => decodeWord_of_decoded (.add ⟨hop, h3, h7⟩), fun rd rs1 rs2 s => ?_⟩
  rw [exec_add, add_eq_ofInt]
  exact writeResult_spec ..

/-- Settles O48: the decoder's SUB arm, and a retired write of the difference. -/
theorem subResult : Obligations.SubResult := by
  refine ⟨fun d w hop h3 h7 => decodeWord_of_decoded (.sub ⟨hop, h3, h7⟩), fun rd rs1 rs2 s => ?_⟩
  rw [exec_sub, sub_eq_ofInt]
  exact writeResult_spec ..

/-- Settles O50: the decoder's SLTU arm, and a retired write of the unsigned comparison. -/
theorem sltuResult : Obligations.SltuResult := by
  refine ⟨fun d w hop h3 h7 => decodeWord_of_decoded (.sltu ⟨hop, h3, h7⟩), fun rd rs1 rs2 s => ?_⟩
  rw [exec_sltu, boolWord_lessUnsigned]
  exact writeResult_spec ..

end Sys2Proof.Machine

/-!
PROOF. The SYSTEM family (spec/45_system.md R106, R108): what the decoder makes of a SYSTEM word, the one meaning of the
three no-ops, and O54 and O55 from the two.
-/
namespace Sys2Proof

/-- A SYSTEM word is a no-op under funct3 = 000 and Illegal under every other: the remaining arms, DIVREM_OPCODE's under
either value among them, name another opcode. -/
theorem decodeWord_opSystem (d : DivremOpcode) {w : InstrWord} (h : opcodeOf w = opSystem) :
    decodeWord d w = if funct3Of w = 0b000#3 then some (decodeSystem w) else none := by
  by_cases hf : funct3Of w = 0b000#3
  · rw [if_pos hf, decodeWord_of_decoded (.system ⟨h, hf⟩)]
  · cases d <;> simp [decodeWord, h, hf]

/-- R106 leaves no fourth no-op. -/
theorem decodeSystem_cases (w : InstrWord) :
    decodeSystem w = .ecall ∨ decodeSystem w = .ebreak ∨ decodeSystem w = .systemNop (rdOf w) (rs1Of w) (fieldI w) := by
  unfold decodeSystem
  split
  · exact .inl rfl
  · split
    · exact .inr (.inl rfl)
    · exact .inr (.inr rfl)

theorem decodeSystem_ecallWord : decodeSystem ecallWord = .ecall := if_pos rfl

theorem decodeSystem_ebreakWord : decodeSystem ebreakWord = .ebreak := by decide

end Sys2Proof

namespace Sys2Proof.Machine

/-- The three names share one meaning: the advance of the pc. -/
theorem exec_of_mem_systemNoOps {i : Instr} {rd rs1 : Reg} {imm : BitVec 12}
    (h : i ∈ [Instr.ecall, Instr.ebreak, Instr.systemNop rd rs1 imm]) (s : State) :
    exec i s = .next s.advancePc := by
  simp only [List.mem_cons, List.not_mem_nil, or_false] at h
  obtain rfl | rfl | rfl := h <;> rfl

/-- Settles O54: the decoder's SYSTEM words under funct3 = 000, ECALL's and EBREAK's among them, and the one meaning
they all have. -/
theorem systemNoOps : Obligations.SystemNoOps := by
  refine ⟨fun d w hop hf => ?decoded, fun d => ⟨?ecall, ?ebreak⟩, fun s rd rs1 imm i hi => ?meaning⟩
  case decoded =>
    rw [decodeWord_opSystem d hop, if_pos hf]
    simpa only [Option.some.injEq] using decodeSystem_cases w
  case ecall => exact (decodeWord_of_decoded (.system ⟨rfl, rfl⟩)).trans (congrArg some decodeSystem_ecallWord)
  case ebreak => exact (decodeWord_of_decoded (.system ⟨rfl, rfl⟩)).trans (congrArg some decodeSystem_ebreakWord)
  case meaning => exact ⟨s.advancePc, exec_of_mem_systemNoOps hi s, rfl, rfl, rfl, rfl, rfl⟩

/-- Settles O55: the decoder makes no instruction of the word, and the step of an Illegal word raises its record after
the advance. -/
theorem otherSystemWordsAreIllegal : Obligations.OtherSystemWordsAreIllegal := by
  intro s w hr hf hop hne
  have hd : decodeWord reference.divremOpcode w = none := by rw [decodeWord_opSystem _ hop, if_neg hne]
  exact ⟨_, cycle_illegal hr hf hd, s.zeroX0.haltedWith_raise _⟩

end Sys2Proof.Machine

/-!
PROOF. The IllegalInstruction condition (spec/60_exceptions.md R111): O10 from the cycle's answer at an Illegal word and
the frame of a halt after the advance.
-/
namespace Sys2Proof.Machine

/-- Settles O10: with no instruction decoded, the cycle raises the word's record after the advance, and that halt writes
nothing but the pc, the run state and the record. -/
theorem illegalWordHalts : Obligations.IllegalWordHalts := by
  intro s w hr hf hd
  have hstep : step s = .next (s.zeroX0.advancePc.raise (illegalRecord s.pc w)) := cycle_illegal hr hf hd
  exact ⟨_, hstep, s.zeroX0.haltedWith_raise _⟩

end Sys2Proof.Machine

/-!
PROOF. The decoder and the encoder (spec/30_encoding.md section 3 and 4): each arm of the decoder on the word its
instruction encodes to (O1), and each arm's word from the instruction it answers (O2).
-/
namespace Sys2Proof

/-! ## SYSTEM words by their fields -/

/-- The fields of ECALL's and EBREAK's words are the ones SYSTEM_NOP leaves out. -/
theorem systemUnnamed_fields_eq_false {w : InstrWord} (h : w = ecallWord ∨ w = ebreakWord) :
    systemUnnamed (rdOf w) (rs1Of w) (fieldI w) = false := by
  obtain rfl | rfl := h <;> decide

/-- A SYSTEM word with the fields that SYSTEM_NOP leaves out is ECALL's or EBREAK's. -/
theorem eq_ecallWord_or_ebreakWord {w : InstrWord} (hop : opcodeOf w = opSystem) (hf : funct3Of w = 0b000#3)
    (h : systemUnnamed (rdOf w) (rs1Of w) (fieldI w) = false) : w = ecallWord ∨ w = ebreakWord := by
  have hw := encodeI_of_fields w
  simp only [systemUnnamed, Bool.not_eq_false', Bool.and_eq_true, Bool.or_eq_true, beq_iff_eq] at h
  obtain ⟨⟨hrd, hrs1⟩, himm | himm⟩ := h <;> rw [hop, hf, hrd, hrs1, himm] at hw
  · exact .inl (hw.symm.trans (by decide))
  · exact .inr (hw.symm.trans (by decide))

theorem decodeSystem_of_unnamed {w : InstrWord} (h : systemUnnamed (rdOf w) (rs1Of w) (fieldI w) = true) :
    decodeSystem w = .systemNop (rdOf w) (rs1Of w) (fieldI w) := by
  have hne : ¬ (w = ecallWord ∨ w = ebreakWord) := fun e => by simp [systemUnnamed_fields_eq_false e] at h
  rw [decodeSystem, if_neg fun e => hne (.inl e), if_neg fun e => hne (.inr e)]

/-! ## From an instruction to its word and back (O1) -/

theorem Decoded.of_eq {d : DivremOpcode} {w : InstrWord} {i j : Instr} (h : Decoded d w j) (e : j = i) :
    Decoded d w i := e ▸ h

/-- The word of a well-formed instruction selects the instruction's own arm, with its operands in their fields. -/
theorem decoded_encodeWith (d : DivremOpcode) {i : Instr} (hwf : i.wf = true) : Decoded d (encodeWith d i) i := by
  cases i with
  | lui rd imm =>
    obtain ⟨hop, hrd, himm⟩ := encodeU_fields imm rd opLui
    exact (Decoded.lui hop).of_eq (by rw [hrd, himm])
  | jal rd offset =>
    obtain ⟨hop, hrd, himm⟩ := encodeJ_fields offset rd opJal
    exact (Decoded.jal hop).of_eq (by rw [hrd, himm hwf])
  | jalr rd rs1 imm f3 =>
    obtain ⟨hop, hf, himm, hrd, hrs1⟩ := encodeI_fields imm rs1 f3 rd opJalr
    exact (Decoded.jalr hop).of_eq (by rw [hf, himm, hrd, hrs1])
  | beq rs1 rs2 offset =>
    obtain ⟨hop, hf, hrs1, hrs2, himm⟩ := encodeB_fields offset rs2 rs1 0b000#3 opBranch
    exact (Decoded.beq ⟨hop, hf⟩).of_eq (by rw [hrs1, hrs2, himm hwf])
  | ld rd rs1 imm =>
    obtain ⟨hop, hf, himm, hrd, hrs1⟩ := encodeI_fields imm rs1 0b011#3 rd opLoad
    exact (Decoded.ld ⟨hop, hf⟩).of_eq (by rw [himm, hrd, hrs1])
  | sd rs1 rs2 imm =>
    obtain ⟨hop, hf, hrs1, hrs2, himm⟩ := encodeS_fields imm rs2 rs1 0b011#3 opStore
    exact (Decoded.sd ⟨hop, hf⟩).of_eq (by rw [hrs1, hrs2, himm])
  | addi rd rs1 imm =>
    obtain ⟨hop, hf, himm, hrd, hrs1⟩ := encodeI_fields imm rs1 0b000#3 rd opOpImm
    exact (Decoded.addi ⟨hop, hf⟩).of_eq (by rw [himm, hrd, hrs1])
  | add rd rs1 rs2 =>
    obtain ⟨hop, hf, h7, hrd, hrs1, hrs2⟩ := encodeR_fields 0b0000000#7 rs2 rs1 0b000#3 rd opOp
    exact (Decoded.add ⟨hop, hf, h7⟩).of_eq (by rw [hrd, hrs1, hrs2])
  | sub rd rs1 rs2 =>
    obtain ⟨hop, hf, h7, hrd, hrs1, hrs2⟩ := encodeR_fields 0b0100000#7 rs2 rs1 0b000#3 rd opOp
    exact (Decoded.sub ⟨hop, hf, h7⟩).of_eq (by rw [hrd, hrs1, hrs2])
  | mul rd rs1 rs2 =>
    obtain ⟨hop, hf, h7, hrd, hrs1, hrs2⟩ := encodeR_fields 0b0000001#7 rs2 rs1 0b000#3 rd opOp
    exact (Decoded.mul ⟨hop, hf, h7⟩).of_eq (by rw [hrd, hrs1, hrs2])
  | sltu rd rs1 rs2 =>
    obtain ⟨hop, hf, h7, hrd, hrs1, hrs2⟩ := encodeR_fields 0b0000000#7 rs2 rs1 0b011#3 rd opOp
    exact (Decoded.sltu ⟨hop, hf, h7⟩).of_eq (by rw [hrd, hrs1, hrs2])
  | divu rd rs1 rs2 =>
    obtain ⟨hop, hf, h7, hrd, hrs1, hrs2⟩ := encodeR_fields 0b0000001#7 rs2 rs1 0b101#3 rd (divremOp d)
    exact (Decoded.divu ⟨hop, hf, h7⟩).of_eq (by rw [hrd, hrs1, hrs2])
  | remu rd rs1 rs2 =>
    obtain ⟨hop, hf, h7, hrd, hrs1, hrs2⟩ := encodeR_fields 0b0000001#7 rs2 rs1 0b111#3 rd (divremOp d)
    exact (Decoded.remu ⟨hop, hf, h7⟩).of_eq (by rw [hrd, hrs1, hrs2])
  | ecall => exact (Decoded.system (w := ecallWord) ⟨rfl, rfl⟩).of_eq decodeSystem_ecallWord
  | ebreak => exact (Decoded.system (w := ebreakWord) ⟨rfl, rfl⟩).of_eq decodeSystem_ebreakWord
  | systemNop rd rs1 imm =>
    obtain ⟨hop, hf, himm, hrd, hrs1⟩ := encodeI_fields imm rs1 0b000#3 rd opSystem
    refine (Decoded.system ⟨hop, hf⟩).of_eq ?_
    rw [decodeSystem_of_unnamed (by rw [himm, hrd, hrs1]; exact hwf), himm, hrd, hrs1]

/-- Settles O1: the word of a well-formed instruction selects its arm, and an arm's key selects it. -/
theorem decodeOfEncodeIsIdentity : Obligations.DecodeOfEncodeIsIdentity :=
  fun d _ hwf => decodeWord_of_decoded (decoded_encodeWith d hwf)

/-! ## From a legal word to its instruction and back (O2) -/

/-- The instruction of a SYSTEM word with funct3 = 000 encodes to the word and is well formed. -/
theorem encodeWith_decodeSystem (d : DivremOpcode) {w : InstrWord} (hop : opcodeOf w = opSystem)
    (hf : funct3Of w = 0b000#3) : encodeWith d (decodeSystem w) = w ∧ (decodeSystem w).wf = true := by
  cases hu : systemUnnamed (rdOf w) (rs1Of w) (fieldI w) with
  | false =>
    obtain rfl | rfl := eq_ecallWord_or_ebreakWord hop hf hu
    · rw [decodeSystem_ecallWord]; exact ⟨rfl, rfl⟩
    · rw [decodeSystem_ebreakWord]; exact ⟨rfl, rfl⟩
  | true =>
    rw [decodeSystem_of_unnamed hu]
    exact ⟨by rw [encodeWith, ← hop, ← hf, encodeI_of_fields], hu⟩

/-- What an arm answers encodes to the word that selected it, and is well formed: the arm's key and the operands it
reads are all of the word's fields. -/
theorem Decoded.encodeWith_eq_and_wf {d : DivremOpcode} {w : InstrWord} {i : Instr} (h : Decoded d w i) :
    encodeWith d i = w ∧ i.wf = true := by
  cases h with
  | lui hop => exact ⟨by rw [encodeWith, ← hop, encodeU_of_fields], rfl⟩
  | jal hop => exact ⟨by rw [encodeWith, ← hop, encodeJ_of_fields], fieldJ_even w⟩
  | jalr hop => exact ⟨by rw [encodeWith, ← hop, encodeI_of_fields], rfl⟩
  | beq hk => exact ⟨by rw [encodeWith, ← hk.1, ← hk.2, encodeB_of_fields], fieldB_even w⟩
  | sd hk => exact ⟨by rw [encodeWith, ← hk.1, ← hk.2, encodeS_of_fields], rfl⟩
  | ld hk | addi hk => exact ⟨by rw [encodeWith, ← hk.1, ← hk.2, encodeI_of_fields], rfl⟩
  | system hk => exact encodeWith_decodeSystem d hk.1 hk.2
  | add hk | sub hk | mul hk | sltu hk | divu hk | remu hk =>
    obtain ⟨hop, hf, h7⟩ := hk
    exact ⟨by rw [encodeWith, ← hop, ← hf, ← h7, encodeR_of_fields], rfl⟩

/-- Settles O2: a legal word selects an arm of the decoder, which keeps all of its fields. -/
theorem encodeOfDecodeIsIdentity : Obligations.EncodeOfDecodeIsIdentity :=
  fun _ _ _ h => (decodeWord_some h).encodeWith_eq_and_wf

end Sys2Proof

/-!
PROOF. What a step can answer (spec/40_fetch_execute.md R76, R77), for O11 to O13, and what it leaves when it halts
(spec/60_exceptions.md R116, R117): what each of the core's four records holds, the step of a RUNNING core as one that
halts with such a record or leaves the run state, and O22, O23 and O24 from the two.
-/
namespace Sys2Proof.Machine

/-! ## What a stored record holds -/

/-- A record as a step at pcThis can store it: R117's fields, an accepted access size, and the fetch's own address. -/
structure HaltRecord.RaisedAt (r : HaltRecord) (pcThis : Word) : Prop where
  wf : r.wf
  pc_eq : r.pc = pcThis
  condition_ne : r.condition ≠ .invalidAccessSize
  size_eq : ∀ n, r.size = some n → n = if r.kind = .fetch then 32 else 64
  addr_eq : ∀ a, r.kind = .fetch → r.addr = some a → a = pcThis

theorem fetchRecord_raisedAt {c : Condition} (pcThis : Word) (hc : c = .addressMisaligned ∨ c = .outOfBounds) :
    (fetchRecord c pcThis).RaisedAt pcThis := by
  obtain rfl | rfl := hc <;> constructor <;> simp [fetchRecord, HaltRecord.wf, eq_comm]

theorem illegalRecord_raisedAt (pcThis : Word) (w : InstrWord) : (illegalRecord pcThis w).RaisedAt pcThis := by
  constructor <;> simp [illegalRecord, HaltRecord.wf]

theorem targetRecord_raisedAt {kind : HaltKind} (pcThis target : Word) (w : InstrWord)
    (hk : kind = .jump ∨ kind = .branch) : (targetRecord kind pcThis w target).RaisedAt pcThis := by
  obtain rfl | rfl := hk <;> constructor <;> simp [targetRecord, HaltRecord.wf]

theorem dataRecord_raisedAt {c : Condition} {kind : HaltKind} (pcThis addr : Word) (w : InstrWord)
    (hk : kind = .load ∨ kind = .store) (hc : c = .addressMisaligned ∨ c = .outOfBounds) :
    (dataRecord c kind pcThis w addr 64#8).RaisedAt pcThis := by
  obtain rfl | rfl := hk <;> obtain rfl | rfl := hc <;> constructor <;>
    simp [dataRecord, HaltRecord.wf, eq_comm]

/-! ## An instruction retires or halts -/

/-- An instruction that halted: the advance, and a record of another kind than fetch that holds its word. -/
structure InstrHalted (i : Instr) (s t : State) (r : HaltRecord) : Prop where
  state_eq : t = s.advancePc.raise r
  raised : r.RaisedAt s.pc
  word_eq : r.word = some (encode i)
  kind_ne : r.kind ≠ .fetch

/-- An instruction leaves the run state and the record as they were, or it halts. -/
theorem ExecEffect.sameRun_or_halted {cfg : Config} {i : Instr} {s t : State} (h : ExecEffect cfg i s t) :
    s.SameRun t ∨ ∃ r, InstrHalted i s t r := by
  cases h with
  | wrote | jal | jalr | taken | advanced | stored => exact .inl (by simp [State.SameRun])
  | badTarget kind target hk =>
    refine .inr ⟨_, rfl, targetRecord_raisedAt _ _ _ hk, rfl, ?_⟩
    obtain rfl | rfl := hk <;> simp [targetRecord]
  | badAccess c kind addr hk hc =>
    refine .inr ⟨_, rfl, dataRecord_raisedAt _ _ _ hk hc, rfl, ?_⟩
    obtain rfl | rfl := hk <;> simp [dataRecord]

/-! ## The step's two machines, and what a step can answer -/

theorem step_eq_stepWith (s : State) : step s = stepWith reference s :=
  congrArg (cycle reference · s) (funext fun i => funext (exec_eq_execWith i))

/-- Settles O13. -/
theorem stepIsStepWithReference : Obligations.StepIsStepWithReference := fun s => (step_eq_stepWith s).symm

theorem stepWith_halted {cfg : Config} {s : State} (hr : s.run = .halted) : stepWith cfg s = .next s :=
  cycle_halted hr

theorem stepWith_next (cfg : Config) (s : State) : ∃ t, stepWith cfg s = .next t := by
  cases hr : s.run with
  | halted => exact ⟨_, stepWith_halted hr⟩
  | running =>
    cases hf : fetch cfg s with
    | error r => exact ⟨_, cycle_fetchHalt hr hf⟩
    | ok w =>
      cases hd : decodeWord cfg.divremOpcode w with
      | none => exact ⟨_, cycle_illegal hr hf hd⟩
      | some i =>
        obtain ⟨t, ht⟩ := execWith_next cfg i s.zeroX0
        exact ⟨t, (cycle_handled hr hf hd).trans ht⟩

theorem step_next (s : State) : ∃ t, step s = .next t := step_eq_stepWith s ▸ stepWith_next reference s

/-- Settles O12: the cycle's four answers, the handlers' among them, are next states. -/
theorem everyStepAnswersNextState : Obligations.EveryStepAnswersNextState := ⟨step_next, stepWith_next⟩

/-- Settles O11. -/
theorem haltedStepChangesNothing : Obligations.HaltedStepChangesNothing := fun s hr =>
  ⟨cycle_halted hr, fun r hrec => by simp [State.result, hr, hrec]⟩

/-! ## A step retires or halts -/

/-- A step that halted with r: no register but x0 and no memory is written (R116), and the pc stands where R84 says. -/
structure StepHalted (s t : State) (r : HaltRecord) : Prop where
  run_eq : t.run = .halted
  record_eq : t.haltRecord = some r
  raised : r.RaisedAt s.pc
  pc_eq : t.pc = if r.kind = .fetch then s.pc else s.pc + 4#64
  regs_eq : t.regs = s.regs.set 0 0
  mem_eq : t.mem = s.mem

/-- The condition of a fetch halts the step at pc_this. -/
theorem stepHalted_of_fetch_error {cfg : Config} {s : State} {r : HaltRecord} (hf : fetch cfg s = .error r) :
    StepHalted s (s.zeroX0.raise r) r := by
  obtain ⟨hr, hk⟩ : r.RaisedAt s.pc ∧ r.kind = .fetch := by
    obtain ⟨-, rfl⟩ | ⟨-, -, rfl⟩ := fetch_error hf
    · exact ⟨fetchRecord_raisedAt _ (.inl rfl), rfl⟩
    · exact ⟨fetchRecord_raisedAt _ (.inr rfl), rfl⟩
  exact ⟨rfl, rfl, hr, (if_pos hk).symm, rfl, rfl⟩

/-- Any other condition halts the step after the advance. -/
theorem stepHalted_of_raise {s : State} {r : HaltRecord} (hr : r.RaisedAt s.pc) (hk : r.kind ≠ .fetch) :
    StepHalted s (s.zeroX0.advancePc.raise r) r :=
  ⟨rfl, rfl, hr, (if_neg hk).symm, rfl, rfl⟩

/-- A step of a RUNNING core leaves the run state and the record, or it halts. A record's word, if it has one, is the
fetched one; log 10 computes it with this hardware's DIVREM_OPCODE. -/
theorem stepWith_sameRun_or_halted {cfg : Config} {s t : State} (hr : s.run = .running)
    (h : stepWith cfg s = .next t) :
    s.SameRun t ∨ ∃ r, StepHalted s t r ∧
      (cfg.divremOpcode = reference.divremOpcode → ∀ w, r.word = some w → fetch cfg s = .ok w) := by
  cases cycle_effect hr h with
  | fetchHalt r hf ht =>
    subst ht
    refine .inr ⟨r, stepHalted_of_fetch_error hf, fun _ w hw => ?_⟩
    obtain ⟨-, rfl⟩ | ⟨-, -, rfl⟩ := fetch_error hf <;> cases hw
  | illegal w hf hd ht =>
    subst ht
    refine .inr ⟨_, stepHalted_of_raise (illegalRecord_raisedAt s.pc w) (by simp [illegalRecord]), fun _ v hv => ?_⟩
    cases hv; exact hf
  | handled w i hf hd ht =>
    obtain hrun | ⟨r, rfl, hrec, hword, hk⟩ := (execWith_effect ht).sameRun_or_halted
    · exact .inl hrun
    · refine .inr ⟨r, stepHalted_of_raise hrec hk, fun hcfg v hv => ?_⟩
      have hw : encode i = w := by rw [encode, ← hcfg]; exact (decodeWord_some hd).encodeWith_eq_and_wf.1
      rw [hword, hw] at hv
      cases hv; exact hf

/-- A step of this hardware that leaves a RUNNING core HALTED has halted with a record. -/
theorem stepHalted_of_halted {s t : State} (hr : s.run = .running) (h : step s = .next t) (ht : t.run = .halted) :
    ∃ r, StepHalted s t r ∧ ∀ w, r.word = some w → fetch reference s = .ok w := by
  obtain ⟨hrun, -⟩ | ⟨r, hs, hword⟩ := stepWith_sameRun_or_halted hr (step_eq_stepWith s ▸ h)
  · rw [hrun, hr] at ht; cases ht
  · exact ⟨r, hs, hword rfl⟩

/-! ## The obligations -/

/-- Settles O22: the frame of a halted step. -/
theorem haltIsPrecise : Obligations.HaltIsPrecise := by
  intro s t hr h ht
  obtain ⟨r, hs, -⟩ := stepHalted_of_halted hr h ht
  exact ⟨hs.regs_eq, hs.mem_eq, r, hs.record_eq, hs.raised.pc_eq, hs.pc_eq⟩

/-- Settles O23: the record of a halted step. -/
theorem haltRecordFields : Obligations.HaltRecordFields := by
  intro s t r hr h ht hrec
  obtain ⟨r', hs, hword⟩ := stepHalted_of_halted hr h ht
  obtain rfl : r' = r := Option.some.inj (hs.record_eq.symm.trans hrec)
  exact ⟨hs.raised.wf, hs.raised.pc_eq, hword, hs.raised.size_eq, hs.raised.addr_eq⟩

/-- Settles O24: the bus checks the size first, and no record of a halted step has the condition. -/
theorem invalidAccessSizeOnlyAtTheBus : Obligations.InvalidAccessSizeOnlyAtTheBus := by
  refine ⟨fun cfg m addr v size hs => ⟨memRead_invalid hs, memWrite_invalid hs⟩, fun s t r hr h ht hrec => ?_⟩
  obtain ⟨r', hs, -⟩ := stepHalted_of_halted hr h ht
  obtain rfl : r' = r := Option.some.inj (hs.record_eq.symm.trans hrec)
  exact hs.raised.condition_ne

end Sys2Proof.Machine

/-!
PROOF. The invariant of the core: what an instruction and a step leave of x0, of the pc's alignment and of memory, each
said once; then O15, O17 and O19, reset and boot (O16, O18), and the rules that are parts of it (O20, O21, O26).
-/
namespace Sys2Proof.Machine

variable {cfg : Config} {i : Instr} {s t : State}

/-! ## x0 -/

theorem ExecEffect.regs_zero (h : ExecEffect cfg i s t) : t.regs[0] = s.regs[0] := by
  cases h with
  | wrote rd v => exact s.writeReg_regs_zero rd v
  | jal rd | jalr rd => exact s.writeReg_regs_zero rd _
  | taken | advanced | stored | badTarget | badAccess => rfl

theorem State.zeroX0_regs_zero (s : State) : s.zeroX0.regs[0] = 0 := Vector.getElem_set_self _

/-- Stage 1 sets x0 to 0, and nothing after it writes x0. -/
theorem stepWith_x0Zero (hr : s.run = .running) (h : stepWith cfg s = .next t) : t.X0Zero := by
  cases cycle_effect hr h with
  | fetchHalt r _ ht => exact ht ▸ s.zeroX0_regs_zero
  | illegal w _ _ ht => exact ht ▸ s.zeroX0_regs_zero
  | handled w i _ _ ht => exact (execWith_effect ht).regs_zero.trans s.zeroX0_regs_zero

/-! ## The pc's alignment -/

theorem add_four_aligned {pc : Word} (h : pc.toNat % 4 = 0) : (pc + 4#64).toNat % 4 = 0 := by
  rw [BitVec.toNat_add]; simp only [BitVec.toNat_ofNat]; omega

/-- The advance keeps the alignment, and every target is checked before it becomes the pc. -/
theorem ExecEffect.pcAligned (h : ExecEffect cfg i s t) (hs : s.PcAligned) : t.PcAligned := by
  cases h with
  | jal _ _ _ ha => exact (targetAligned_iff _).mp ha
  | jalr _ _ _ _ _ ha => exact (targetAligned_iff _).mp ha
  | taken _ _ _ _ _ ha => exact (targetAligned_iff _).mp ha
  | wrote rd v => simpa [State.PcAligned] using add_four_aligned hs
  | advanced | stored | badTarget | badAccess => exact add_four_aligned hs

theorem stepWith_pcAligned (h : stepWith cfg s = .next t) (hs : s.PcAligned) : t.PcAligned := by
  cases hr : s.run with
  | halted => cases (stepWith_halted hr).symm.trans h; exact hs
  | running =>
    cases cycle_effect hr h with
    | fetchHalt r _ ht => exact ht ▸ hs
    | illegal w _ _ ht => exact ht ▸ add_four_aligned hs
    | handled w i _ _ ht => exact (execWith_effect ht).pcAligned hs

/-! ## Memory -/

/-- SD's write: the eight bytes of x[rs2] at an address in bounds. -/
structure StoredBy (cfg : Config) (s t : State) (rs1 rs2 : Reg) (imm : BitVec 12) : Prop where
  inBounds : InBounds cfg (storeAddress s rs1 imm) 8
  mem_eq : t.mem = s.mem.writeLE (storeAddress s rs1 imm).toNat (s.readReg rs2) 8

theorem ExecEffect.mem_eq_or_stored (h : ExecEffect cfg i s t) :
    t.mem = s.mem ∨ ∃ rs1 rs2 imm, i = .sd rs1 rs2 imm ∧ StoredBy cfg s t rs1 rs2 imm := by
  cases h with
  | stored rs1 rs2 imm m hi hm =>
    obtain ⟨hb, rfl⟩ := dataWrite_ok hm
    exact .inr ⟨rs1, rs2, imm, hi, hb, rfl⟩
  | wrote | jal | jalr | taken | advanced | badTarget | badAccess => left; simp

/-- Only an SD changes memory (20_memory.md R44). -/
theorem stepWith_mem_eq_or_stored (hr : s.run = .running) (h : stepWith cfg s = .next t) :
    t.mem = s.mem ∨ ∃ rs1 rs2 imm, nextInstr cfg s = some (.sd rs1 rs2 imm) ∧ StoredBy cfg s t rs1 rs2 imm := by
  cases cycle_effect hr h with
  | fetchHalt r _ ht => exact .inl (ht ▸ rfl)
  | illegal w _ _ ht => exact .inl (ht ▸ rfl)
  | handled w i hf hd ht =>
    obtain hm | ⟨rs1, rs2, imm, rfl, hb, hm⟩ := (execWith_effect ht).mem_eq_or_stored
    · exact .inl hm
    · simp only [storeAddress, State.readReg_zeroX0, State.zeroX0_mem] at hb hm
      exact .inr ⟨rs1, rs2, imm, (nextInstr_of_fetch_ok hr hf).trans hd, hb, hm⟩

theorem Memory.sameOutside_writeLE (m : Memory) (a : Nat) (v : Word) (n : Nat) :
    Memory.SameOutside m (m.writeLE a v n) a n :=
  fun x hx => by rw [Memory.readByte_writeLE, if_neg hx]

/-- Settles O26. -/
theorem onlyStoresChangeMemory : Obligations.OnlyStoresChangeMemory := by
  intro s t hr h hne
  obtain hm | ⟨rs1, rs2, imm, hi, -, hm⟩ := stepWith_mem_eq_or_stored hr (step_eq_stepWith s ▸ h)
  · exact absurd hm hne
  · exact ⟨rs1, rs2, imm, hi, hm ▸ Memory.sameOutside_writeLE _ _ _ _⟩

/-- A step keeps memory's canonical form, and it lists nothing outside the region, for SD's write is in bounds. -/
theorem stepWith_mem_inv (hr : s.run = .running) (h : stepWith cfg s = .next t) (hwf : s.mem.wf)
    (hin : s.mem.inRegion cfg) : t.mem.wf ∧ t.mem.inRegion cfg := by
  obtain hm | ⟨rs1, rs2, imm, -, ⟨hlo, hhi⟩, hm⟩ := stepWith_mem_eq_or_stored hr h <;> rw [hm]
  · exact ⟨hwf, hin⟩
  · exact ⟨Memory.writeLE_wf _ _ _ hwf, Memory.writeLE_inRegion _ hin hlo hhi⟩

/-! ## The run state and the record -/

/-- The part of the invariant that speaks of the run state and the record. -/
abbrev State.RecordInv (s : State) : Prop := s.RecordWhenHalted ∧ s.RecordWf ∧ s.HaltPc

theorem recordInv_of_running (hr : s.run = .running) (hn : s.haltRecord = none) : s.RecordInv := by
  simp [State.RecordInv, State.RecordWhenHalted, State.RecordWf, State.HaltPc, hr, hn]

theorem State.RecordWhenHalted.none_of_running (h : s.RecordWhenHalted) (hr : s.run = .running) :
    s.haltRecord = none := by
  simpa [State.RecordWhenHalted, hr] using h

theorem StepHalted.recordInv {r : HaltRecord} (h : StepHalted s t r) (hs : s.PcAligned) : t.RecordInv := by
  refine ⟨by simp [State.RecordWhenHalted, h.run_eq, h.record_eq], fun r' hr' => ?_, fun r' hr' => ?_⟩ <;>
    obtain rfl : r = r' := Option.some.inj (h.record_eq.symm.trans hr')
  · exact ⟨h.raised.wf, h.raised.pc_eq ▸ hs, h.raised.condition_ne⟩
  · rw [h.pc_eq, h.raised.pc_eq]
    split <;> rfl

theorem stepWith_recordInv (hr : s.run = .running) (h : stepWith cfg s = .next t) (hs : s.PcAligned)
    (hrec : s.RecordWhenHalted) : t.RecordInv := by
  obtain ⟨hrun, hsame⟩ | ⟨r, hhalt, -⟩ := stepWith_sameRun_or_halted hr h
  · exact recordInv_of_running (hrun.trans hr) (hsame.trans (hrec.none_of_running hr))
  · exact hhalt.recordInv hs

/-! ## The invariant -/

theorem stepWith_keeps_inv (hs : s.Inv cfg) (h : stepWith cfg s = .next t) : t.Inv cfg := by
  cases hr : s.run with
  | halted => cases (stepWith_halted hr).symm.trans h; exact hs
  | running =>
    obtain ⟨-, hpc, hrec, -, -, hwf, hin⟩ := hs
    obtain ⟨hrec', hrwf, hhpc⟩ := stepWith_recordInv hr h hpc hrec
    exact ⟨stepWith_x0Zero hr h, stepWith_pcAligned h hpc, hrec', hrwf, hhpc, stepWith_mem_inv hr h hwf hin⟩

/-- Settles O17: each part of the invariant is kept, whatever the configuration. -/
theorem stepKeepsInvariantForEveryConfiguration : Obligations.StepKeepsInvariantForEveryConfiguration :=
  fun _ _ _ _ hs h => stepWith_keeps_inv hs h

/-- Settles O15: the machine is the parametric one at the reference configuration. -/
theorem stepKeepsInvariant : Obligations.StepKeepsInvariant :=
  fun s _ hs h => stepWith_keeps_inv hs (step_eq_stepWith s ▸ h)

/-- reset() leaves the invariant over any memory that meets its part of it. -/
theorem resetOf_inv {m : Memory} (hv : cfg.Valid) (hwf : m.wf) (hin : m.inRegion cfg) :
    (State.resetOf cfg m).Inv cfg := by
  have hpc : (State.resetOf cfg m).PcAligned := by
    obtain ⟨hbase, -⟩ := hv
    simp only [State.PcAligned, State.resetOf_pc, resetPc, BitVec.toNat_ofNat]
    omega
  obtain ⟨hrec, hrwf, hhpc⟩ := recordInv_of_running (State.resetOf_run cfg m) (State.resetOf_haltRecord cfg m)
  exact ⟨by simp [State.X0Zero, resetRegs, resetReg], hpc, hrec, hrwf, hhpc, hwf, hin⟩

theorem reference_valid : reference.Valid := by unfold Config.Valid; decide

theorem nil_wf : Memory.wf [] := ⟨.nil, by simp⟩

theorem nil_inRegion (cfg : Config) : Memory.inRegion cfg [] := by simp [Memory.inRegion]

/-- Settles O16: State.reset is reset() over the empty memory. -/
theorem resetMeetsInvariant : Obligations.ResetMeetsInvariant :=
  resetOf_inv reference_valid nil_wf (nil_inRegion reference)

/-- An image that is loaded fits, and its bytes are written from B up. -/
theorem boot_eq_some {image : List Byte} (h : boot cfg image = some s) :
    image.length ≤ cfg.memSize ∧ s = State.resetOf cfg (Memory.writeBytes [] cfg.memBase image) := by
  simp only [boot, Memory.loadImage, Nat.zero_add, Nat.add_zero] at h
  split at h
  · exact ⟨‹_›, (Option.some.inj h).symm⟩
  · cases h

/-- Settles O18: the loader's writes keep memory's part of the invariant, for the image fits. -/
theorem bootMeetsInvariant : Obligations.BootMeetsInvariant := by
  intro cfg image s hv h
  obtain ⟨hfit, rfl⟩ := boot_eq_some h
  exact resetOf_inv hv (Memory.writeBytes_wf _ _ nil_wf)
    (Memory.writeBytes_inRegion _ (nil_inRegion cfg) (Nat.le_refl _) (by omega))

/-! ## Runs -/

theorem core_run_succ {M : Host.Core} {x y : M.State} (k : Nat) (h : M.step x = .next y) :
    M.run (k + 1) x = M.run k y := by
  rw [Host.Core.run, h]

theorem run_succ {u : State} (k : Nat) (h : step s = .next u) :
    Host.Core.run core (k + 1) s = Host.Core.run core k u :=
  core_run_succ k h

/-- What every step keeps, every run keeps. -/
theorem run_keeps {P : State → Prop} (hstep : ∀ s t, P s → step s = .next t → P t) (k : Nat) (hs : P s)
    (h : Host.Core.run core k s = .next t) : P t := by
  induction k generalizing s with
  | zero => cases h; exact hs
  | succ k ih =>
    obtain ⟨u, hu⟩ := step_next s
    exact ih (hstep s u hs hu) (run_succ k hu ▸ h)

/-- Settles O19. -/
theorem everyReachedStateMeetsInvariant : Obligations.EveryReachedStateMeetsInvariant :=
  fun k _ _ hs h => run_keeps (P := State.Inv reference) stepKeepsInvariant k hs h

theorem run_halted (k : Nat) (hr : s.run = .halted) : Host.Core.run core k s = .next s := by
  induction k with
  | zero => rfl
  | succ k ih => exact (run_succ k (cycle_halted hr)).trans ih

/-- A run is its first j steps and then the rest. -/
theorem run_add (j k : Nat) (s : State) :
    ∃ u, Host.Core.run core j s = .next u ∧ Host.Core.run core (j + k) s = Host.Core.run core k u := by
  induction j generalizing s with
  | zero => exact ⟨s, rfl, by rw [Nat.zero_add]⟩
  | succ j ih =>
    obtain ⟨v, hv⟩ := step_next s
    obtain ⟨u, hu, hrest⟩ := ih v
    exact ⟨u, (run_succ j hv).trans hu, by rw [Nat.succ_add, run_succ _ hv, hrest]⟩

/-- Settles O14: a HALTED state on the way would be the run's end. -/
theorem safeRunsAreSafeThroughout : Obligations.SafeRunsAreSafeThroughout := by
  rintro j k s ⟨t, ht, hrun⟩
  obtain ⟨u, hu, hrest⟩ := run_add j k s
  refine ⟨u, hu, ?_⟩
  cases hr : u.run with
  | running => rfl
  | halted =>
    rw [hrest, run_halted k hr] at ht
    cases ht
    exact hr.symm.trans hrun

/-! ## Parts of the invariant -/

/-- Settles O20: alignment is kept from any aligned state, a record or none. -/
theorem pcStaysAligned : Obligations.PcStaysAligned :=
  ⟨resetMeetsInvariant.2.1, fun s _ hs h => stepWith_pcAligned (step_eq_stepWith s ▸ h) hs⟩

/-- Settles O21. -/
theorem x0IsHardwiredToZero : Obligations.X0IsHardwiredToZero := by
  refine ⟨fun s => s.readReg_zero, fun s v => if_pos rfl, fun s r q v hr => ?_, fun s t hr h =>
    stepWith_x0Zero hr (step_eq_stepWith s ▸ h)⟩
  have hq : (q = r ∧ q ≠ 0) ↔ q = r := and_iff_left_of_imp fun e => e ▸ hr
  simp only [State.readReg_writeReg, hq]

end Sys2Proof.Machine

/-!
PROOF. The bus and the fetch (spec/20_memory.md R39 to R43; spec/40_fetch_execute.md R79): the bytes of an accepted
access, a read inside a write, the word at the pc; O42 to O45 and O8, O9 from them.
-/
namespace Sys2Proof.Machine

variable {cfg : Config} {m m' : Memory} {addr v : Word} {size : BitVec 8}

/-! ## The bus -/

/-- The bus moves at most eight bytes. -/
theorem bytes_le_eight_of_validSize (h : validSize size) : size.toNat / 8 ≤ 8 := by
  obtain rfl | rfl | rfl | rfl := h <;> decide

/-- A little-endian read of n bytes is zero-extended. -/
theorem Memory.readLE_high_bits (m : Memory) (a : Nat) {n k : Nat} (h : 8 * n ≤ k) :
    (m.readLE a n).getLsbD k = false := by
  rw [Memory.getLsbD_readLE, decide_eq_false (Nat.not_lt.mpr h), Bool.false_and, Bool.false_and]

/-- Settles O42: the three answers of the bus load, and the bytes and the zero bits of a little-endian read. -/
theorem busLoad : Obligations.BusLoad := by
  refine fun cfg m addr size => ⟨fun hs => memRead_invalid hs, fun hs hb => memRead_outside hs hb,
    fun hs hlo hhi => ⟨_, memRead_inside hs ⟨hlo, hhi⟩, fun k hk => ?_, fun k hk => ?_⟩⟩
  · exact Memory.byteOf_readLE m addr.toNat hk (bytes_le_eight_of_validSize hs)
  · exact Memory.readLE_high_bits m addr.toNat (by omega)

/-- A write leaves byte k of the value at a + k. -/
theorem Memory.readByte_writeLE_inside (m : Memory) (a : Nat) (v : Word) {n k : Nat} (hk : k < n) :
    (m.writeLE a v n).readByte (a + k) = byteOf v k := by
  rw [Memory.readByte_writeLE, if_pos ⟨Nat.le_add_right a k, by omega⟩, Nat.add_sub_cancel_left]

/-- Settles O43: the three answers of the bus store, and the bytes inside and outside a little-endian write. -/
theorem busStore : Obligations.BusStore := by
  refine fun cfg m addr v size => ⟨fun hs => memWrite_invalid hs, fun hs hb => memWrite_outside hs hb,
    fun hs hlo hhi => ⟨_, memWrite_inside hs ⟨hlo, hhi⟩, fun k hk => ?_, Memory.sameOutside_writeLE _ _ _ _⟩⟩
  exact Memory.readByte_writeLE_inside m addr.toNat v hk

/-- Settles O45: an accepted store is a little-endian write in bounds. -/
theorem storeKeepsCanonicalMemory : Obligations.StoreKeepsCanonicalMemory := by
  intro cfg m m' addr v size hwf hin h
  obtain ⟨-, ⟨hlo, hhi⟩, rfl⟩ := memWrite_ok h
  exact ⟨Memory.writeLE_wf _ _ _ hwf, Memory.writeLE_inRegion _ hin hlo hhi⟩

/-! ## A read inside a write -/

/-- Reading n bytes at offset j of a written value gives those bytes of the value, zero-extended. -/
theorem Memory.readLE_writeLE_within (m : Memory) (a : Nat) (v : Word) {j n len : Nat} (h : j + n ≤ len) :
    (m.writeLE a v len).readLE (a + j) n = (v.extractLsb' (8 * j) (8 * n)).setWidth 64 := by
  apply BitVec.eq_of_getLsbD_eq
  intro i hi
  rw [Memory.getLsbD_readLE, BitVec.getLsbD_setWidth, BitVec.getLsbD_extractLsb']
  by_cases hn : i < 8 * n
  · have hbit : 8 * (j + i / 8) + i % 8 = 8 * j + i := by omega
    have hmod : i % 8 < 8 := by omega
    rw [Nat.add_assoc, Memory.readByte_writeLE_inside m a v (by omega : j + i / 8 < len), byteOf,
      BitVec.getLsbD_extractLsb', hbit]
    simp [hn, hi, hmod]
  · simp [hn]

/-- The four bytes below the end of the address space are reached without wrapping. -/
theorem toNat_add_four (h : addr.toNat + 8 ≤ 2 ^ 64) : (addr + 4).toNat = addr.toNat + 4 := by
  rw [BitVec.toNat_add]
  simp only [BitVec.reduceToNat]
  omega

theorem memRead_32_inside (hb : InBounds cfg addr 4) : memRead cfg m addr 32 = .ok (m.readLE addr.toNat 4) :=
  memRead_inside (by decide) hb

theorem memWrite_64_ok (h : memWrite cfg m addr 64 v = .ok m') :
    InBounds cfg addr 8 ∧ m' = m.writeLE addr.toNat v 8 :=
  (memWrite_ok h).2

/-- Settles O44: both loads read inside the doubleword written. -/
theorem mixedWidthSeesLittleEndianBytes : Obligations.MixedWidthSeesLittleEndianBytes := by
  intro cfg m m' addr v hv h
  obtain ⟨⟨hlo, hhi⟩, rfl⟩ := memWrite_64_ok h
  obtain ⟨-, -, -, hregion⟩ := hv
  have hhigh : (addr + 4).toNat = addr.toNat + 4 := toNat_add_four (by omega)
  constructor
  · rw [memRead_32_inside ⟨hlo, by omega⟩]
    exact congrArg _ (m.readLE_writeLE_within addr.toNat v (j := 0) (n := 4) (by decide))
  · rw [memRead_32_inside (addr := addr + 4) ⟨by omega, by omega⟩, hhigh]
    exact congrArg _ (m.readLE_writeLE_within addr.toNat v (j := 4) (n := 4) (by decide))

/-! ## The fetch -/

/-- The fetched word is the four bytes at the pc, little-endian. -/
theorem fetch_inside_bytes {s : State} (h : s.pc.toNat % 4 = 0) (hb : InBounds cfg s.pc 4) :
    fetch cfg s = .ok (s.mem.readByte (s.pc.toNat + 3) ++ s.mem.readByte (s.pc.toNat + 2) ++
      s.mem.readByte (s.pc.toNat + 1) ++ s.mem.readByte s.pc.toNat) := by
  rw [fetch_inside h hb, Memory.extract_readLE_four]

/-- Settles O9: the fetch's three answers, and a step that a fetch condition halts. -/
theorem fetchStage : Obligations.FetchStage := by
  refine fun s hr => ⟨fun ha => ?misaligned, fun ha hb => ?outside, fun ha hlo hhi =>
    fetch_inside_bytes ha ⟨hlo, hhi⟩⟩
  case misaligned => exact ⟨_, cycle_fetchHalt hr (fetch_misaligned ha), rfl, rfl, rfl, rfl, rfl⟩
  case outside => exact ⟨_, cycle_fetchHalt hr (fetch_outside ha hb), rfl, rfl, rfl, rfl, rfl⟩

/-- Settles O8: the fetched word is the four bytes, and the cycle is its handler's, or halts where it has none. -/
theorem stepRunsDecodedInstruction : Obligations.StepRunsDecodedInstruction := by
  constructor
  · rintro s i _ _ _ _ hr ha hlo hhi rfl rfl rfl rfl hd
    exact cycle_handled hr (fetch_inside_bytes ha ⟨hlo, hhi⟩) hd
  · rintro cfg s _ _ _ _ hr ha hlo hhi rfl rfl rfl rfl
    have hf := fetch_inside_bytes (cfg := cfg) ha ⟨hlo, hhi⟩
    exact ⟨fun i hd => cycle_handled hr hf hd,
      fun hd => ⟨_, cycle_illegal hr hf hd, s.zeroX0.haltedWith_raise _⟩⟩

end Sys2Proof.Machine

/-!
PROOF. LD and SD (spec/43_load_store.md; spec/20_memory.md R47, R53): what each leaves when its access is made, under
any configuration, O39 from that, and O36 to O38 as O39 on this hardware; a load and a fetch after a store (O40, O41).
-/
namespace Sys2Proof.Machine

variable {cfg : Config} {s : State} {rs1 : Reg} {imm : BitVec 12} {addr : Word}

/-- The alignment check passes where MISALIGNED_DATA is perform or the address is a multiple of 8. -/
theorem not_misalignedHalt (h : cfg.misalignedData = .perform ∨ addr.toNat % 8 = 0) : ¬ MisalignedHalt cfg addr := by
  rintro ⟨hhalt, hmis⟩
  obtain h | h := h
  · rw [hhalt] at h; cases h
  · exact hmis h

/-! ## An access that is made -/

/-- LD retires with the eight bytes at its address, little-endian. -/
theorem ldWith_loads (rd : Reg) (h : ¬ MisalignedHalt cfg (loadAddress s rs1 imm))
    (hb : InBounds cfg (loadAddress s rs1 imm) 8) :
    ∃ t v, ldWith cfg rd rs1 imm s = .next t ∧ s.Retired t rd v ∧
      ∀ k < 8, v.extractLsb' (8 * k) 8 = s.mem.readByte ((loadAddress s rs1 imm).toNat + k) :=
  ⟨_, _, ldWith_inside h hb, s.retired_writeReg rd _, fun _ hk => Memory.byteOf_readLE _ _ hk (Nat.le_refl 8)⟩

/-- SD writes the eight bytes of x[rs2] at its address and advances. -/
theorem sdWith_stores (rs2 : Reg) (h : ¬ MisalignedHalt cfg (storeAddress s rs1 imm))
    (hb : InBounds cfg (storeAddress s rs1 imm) 8) :
    ∃ t, sdWith cfg rs1 rs2 imm s = .next t ∧ t.regs = s.regs ∧ t.pc = s.pc + 4 ∧ s.SameRun t ∧
      (∀ k < 8, t.mem.readByte ((storeAddress s rs1 imm).toNat + k) = (s.readReg rs2).extractLsb' (8 * k) 8) ∧
      Memory.SameOutside s.mem t.mem (storeAddress s rs1 imm).toNat 8 :=
  ⟨_, sdWith_inside h hb, rfl, rfl, ⟨rfl, rfl⟩, fun _ hk => Memory.readByte_writeLE_inside _ _ _ hk,
    Memory.sameOutside_writeLE _ _ _ _⟩

/-! ## The checks in their order -/

/-- Settles O39: the three answers of LD and of SD. -/
theorem misalignedDataParameter : Obligations.MisalignedDataParameter := by
  rintro cfg r rs1 imm s _ rfl
  refine ⟨fun ha hlo hhi => ⟨?loads, ?stores⟩, fun ha hb => ⟨?loadOutside, ?storeOutside⟩,
    fun hcfg hmis => ⟨?loadMisaligned, ?storeMisaligned⟩⟩
  case loads => exact ldWith_loads r (not_misalignedHalt ha) ⟨hlo, hhi⟩
  case stores => exact sdWith_stores r (not_misalignedHalt ha) ⟨hlo, hhi⟩
  case loadOutside => exact ⟨_, ldWith_outside (not_misalignedHalt ha) hb, s.haltedWith_raise _⟩
  case storeOutside => exact ⟨_, sdWith_outside (not_misalignedHalt ha) hb, s.haltedWith_raise _⟩
  case loadMisaligned => exact ⟨_, ldWith_misaligned ⟨hcfg, hmis⟩, s.haltedWith_raise _⟩
  case storeMisaligned => exact ⟨_, sdWith_misaligned ⟨hcfg, hmis⟩, s.haltedWith_raise _⟩

/-- Settles O36: O39's made load on this hardware. -/
theorem ldLoadsDoubleword : Obligations.LdLoadsDoubleword := by
  intro rd rs1 imm s addr haddr ha hlo hhi
  obtain ⟨hmade, -, -⟩ := misalignedDataParameter reference rd rs1 imm s addr haddr
  exact (hmade (.inr ha) hlo hhi).1

/-- Settles O37: O39's made store on this hardware. -/
theorem sdStoresDoubleword : Obligations.SdStoresDoubleword := by
  intro rs1 rs2 imm s addr haddr ha hlo hhi
  obtain ⟨hmade, -, -⟩ := misalignedDataParameter reference rs2 rs1 imm s addr haddr
  exact (hmade (.inr ha) hlo hhi).2

/-- Settles O38: O39's conditions on this hardware, whose MISALIGNED_DATA is halt. -/
theorem dataAccessChecks : Obligations.DataAccessChecks := by
  intro r rs1 imm s addr haddr
  obtain ⟨-, houtside, hmisaligned⟩ := misalignedDataParameter reference r rs1 imm s addr haddr
  exact ⟨hmisaligned rfl, fun ha => houtside (.inr ha)⟩

/-! ## A load after a store -/

/-- Settles O40: SD changes no register, so LD's address is SD's, and the eight bytes read are those of the value. -/
theorem storeThenLoadReturnsValue : Obligations.StoreThenLoadReturnsValue := by
  intro rd rs1 rs2 imm s addr haddr ha hlo hhi
  obtain ⟨t, ht, hregs, -, -, hbytes, -⟩ := sdStoresDoubleword rs1 rs2 imm s addr haddr ha hlo hhi
  have hread (r : Reg) : t.readReg r = s.readReg r := State.readReg_congr hregs r
  have haddr' : loadAddress t rs1 imm = addr := by rw [haddr, loadAddress, hread, immI]
  have hm : ¬ MisalignedHalt reference (loadAddress t rs1 imm) := haddr' ▸ not_misalignedHalt (.inr ha)
  have hld := ldWith_inside (rd := rd) hm (haddr' ▸ ⟨hlo, hhi⟩)
  rw [haddr', Memory.readLE_eq_of_bytes hbytes] at hld
  refine ⟨t, _, ht, hld, fun r => ?_, by simp⟩
  rw [State.readReg_advancePc, State.readReg_writeReg, hread]

/-! ## A fetch after a store -/

/-- A byte of the fetched word is the byte of memory at its address. -/
theorem fetched_byte (m : Memory) (a : Nat) {k : Nat} (hk : k < 4) :
    ((m.readLE a 4).extractLsb' 0 32).extractLsb' (8 * k) 8 = m.readByte (a + k) := by
  rw [← Memory.byteOf_readLE m a hk (by decide : 4 ≤ 8), byteOf]
  apply BitVec.eq_of_getLsbD_eq
  intro i hi
  simp only [BitVec.getLsbD_extractLsb', Nat.zero_add]
  rw [decide_eq_true (by omega : 8 * k + i < 32), Bool.true_and]

/-- A fetch from inside a written doubleword answers its four bytes there. -/
theorem fetch_of_mem_eq_writeLE {m : Memory} {a j : Nat} {v : Word} (hm : s.mem = m.writeLE a v 8)
    (hpc : s.pc.toNat = a + j) (hj : j + 4 ≤ 8) (ha : s.pc.toNat % 4 = 0) (hb : InBounds cfg s.pc 4) :
    fetch cfg s = .ok (v.extractLsb' (8 * j) 32) := by
  rw [fetch_inside ha hb, hm, hpc, Memory.readLE_writeLE_within m a v hj,
    ← BitVec.setWidth_eq_extractLsb' (by decide), BitVec.setWidth_setWidth_of_le _ (by decide), BitVec.setWidth_eq]

/-- The state SD leaves at an address that passes its checks. -/
theorem sdWith_made (rs2 : Reg) (haddr : addr = storeAddress s rs1 imm)
    (hcfg : cfg.misalignedData = .perform ∨ addr.toNat % 8 = 0) (hb : InBounds cfg addr 8) :
    sdWith cfg rs1 rs2 imm s = .next ({ s with mem := s.mem.writeLE addr.toNat (s.readReg rs2) 8 }.advancePc) := by
  subst haddr
  exact sdWith_inside (not_misalignedHalt hcfg) hb

/-- Settles O41: SD leaves the pc advanced and the doubleword written. A fetch at its address answers the low half, one
four bytes on the high half, and any fetch the bytes of memory after the write. -/
theorem storeIsSeenByNextFetch : Obligations.StoreIsSeenByNextFetch := by
  refine ⟨fun rs1 rs2 imm s haddr ha hlo hhi => ?low, fun rs1 rs2 imm s haddr ha hlo hhi => ?high,
    fun cfg rs1 rs2 imm s addr haddr hcfg hlo hhi ha hlo' hhi' => ?bytes⟩
  case low =>
    have haligned : (s.pc + 4).toNat % 4 = 0 := by omega
    have hb : InBounds reference (s.pc + 4) 4 := ⟨hlo, (by omega : (s.pc + 4).toNat + 4 ≤ 0x80100000)⟩
    refine ⟨_, sdWith_made rs2 haddr (.inr ha) ⟨hlo, hhi⟩, ?_⟩
    exact fetch_of_mem_eq_writeLE (j := 0) rfl rfl (by decide) haligned hb
  case high =>
    have hpc : (s.pc + 4).toNat = s.pc.toNat + 4 := toNat_add_four (by omega)
    have haligned : (s.pc + 4).toNat % 4 = 0 := by omega
    have hb : InBounds reference (s.pc + 4) 4 :=
      ⟨(by omega : 0x80000000 ≤ (s.pc + 4).toNat), (by omega : (s.pc + 4).toNat + 4 ≤ 0x80100000)⟩
    refine ⟨_, sdWith_made rs2 haddr (.inr (by omega)) ⟨hlo, hhi⟩, ?_⟩
    exact fetch_of_mem_eq_writeLE (j := 4) rfl hpc (by decide) haligned hb
  case bytes =>
    refine ⟨_, _, sdWith_made rs2 haddr hcfg ⟨hlo, hhi⟩, fetch_inside ha ⟨hlo', hhi'⟩, fun k hk => ?_⟩
    rw [fetched_byte _ _ hk]
    exact Memory.readByte_writeLE ..

end Sys2Proof.Machine

/-!
PROOF. The decoder against the opcode table (spec/30_encoding.md R66, R67, R69) and the trace's names (R107): the first
row that a legal word has, the arm that a row selects, and O3 from the two; O4, O6 and O7.
-/
namespace Sys2Proof

/-! ## The rows of the table, by the fields they fix -/

section
variable (name : String) (op f3 f7 : Nat) (w : InstrWord)

theorem admits_opcode : (OpcodeRow.mk name [(6, 0, op)]).admits w = ((opcodeOf w).toNat == op) := by
  simp [OpcodeRow.admits, opcodeOf]

theorem admits_opcode_funct3 : (OpcodeRow.mk name [(6, 0, op), (14, 12, f3)]).admits w =
    ((opcodeOf w).toNat == op && (funct3Of w).toNat == f3) := by
  simp [OpcodeRow.admits, opcodeOf, funct3Of]

theorem admits_opcode_funct3_funct7 : (OpcodeRow.mk name [(6, 0, op), (14, 12, f3), (31, 25, f7)]).admits w =
    ((opcodeOf w).toNat == op && ((funct3Of w).toNat == f3 && (funct7Of w).toNat == f7)) := by
  simp [OpcodeRow.admits, opcodeOf, funct3Of, funct7Of]

theorem admits_word : (OpcodeRow.mk name [(31, 0, op)]).admits w = (w.toNat == op) := by
  simp [OpcodeRow.admits, Nat.mod_eq_of_lt w.isLt]

end

/-! ## The row of a legal word -/

/-- The first row a SYSTEM word with funct3 = 000 has: ECALL's and EBREAK's rows fix the whole word and come first. -/
theorem find_row_of_system (d : DivremOpcode) {w : InstrWord} (hop : opcodeOf w = opSystem)
    (hf : funct3Of w = 0b000#3) :
    ((opcodeMap d).find? fun row => row.admits w).map OpcodeRow.mnemonic = some (decodeSystem w).mnemonic := by
  by_cases he : w = ecallWord
  · subst he; cases d <;> decide
  by_cases hb : w = ebreakWord
  · subst hb; cases d <;> decide
  have he' : (w.toNat == 115) = false := beq_false_of_ne fun e => he (BitVec.eq_of_toNat_eq e)
  have hb' : (w.toNat == 1048691) = false := beq_false_of_ne fun e => hb (BitVec.eq_of_toNat_eq e)
  rw [decodeSystem, if_neg he, if_neg hb]
  simp only [opcodeMap, List.find?_cons, admits_opcode, admits_opcode_funct3, admits_opcode_funct3_funct7, admits_word]
  cases d <;> simp [hop, hf, he', hb', Instr.mnemonic]

/-- The first row a word has is that of the arm it selects. -/
theorem Decoded.find_row {d : DivremOpcode} {w : InstrWord} {i : Instr} (h : Decoded d w i) :
    ((opcodeMap d).find? fun row => row.admits w).map OpcodeRow.mnemonic = some i.mnemonic := by
  cases h with
  | system hk => exact find_row_of_system d hk.1 hk.2
  | _ hk =>
    simp only [opcodeMap, List.find?_cons, admits_opcode, admits_opcode_funct3, admits_opcode_funct3_funct7,
      admits_word]
    cases d <;> simp [hk, Instr.mnemonic]

/-! ## The arm of a row -/

/-- Every row selects an arm: ECALL's and EBREAK's words are SYSTEM words with funct3 = 000. -/
theorem decoded_of_admits {d : DivremOpcode} {w : InstrWord} {row : OpcodeRow} (hrow : row ∈ opcodeMap d)
    (h : row.admits w = true) : ∃ i, Decoded d w i := by
  have key {n : Nat} {x y : BitVec n} (e : x.toNat = y.toNat) : x = y := BitVec.eq_of_toNat_eq e
  simp only [opcodeMap, List.mem_cons, List.not_mem_nil, or_false] at hrow
  obtain rfl | rfl | rfl | rfl | rfl | rfl | rfl | rfl | rfl | rfl | rfl | rfl | rfl | rfl | rfl | rfl := hrow <;>
    simp only [admits_opcode, admits_opcode_funct3, admits_opcode_funct3_funct7, admits_word, Bool.and_eq_true,
      beq_iff_eq] at h
  · exact ⟨_, .lui (key h)⟩
  · exact ⟨_, .jal (key h)⟩
  · exact ⟨_, .jalr (key h)⟩
  · exact ⟨_, .beq (h.imp key key)⟩
  · exact ⟨_, .ld (h.imp key key)⟩
  · exact ⟨_, .sd (h.imp key key)⟩
  · exact ⟨_, .addi (h.imp key key)⟩
  · exact ⟨_, .add (h.imp key (.imp key key))⟩
  · exact ⟨_, .sub (h.imp key (.imp key key))⟩
  · exact ⟨_, .mul (h.imp key (.imp key key))⟩
  · exact ⟨_, .sltu (h.imp key (.imp key key))⟩
  · exact ⟨_, .divu (h.imp key (.imp key key))⟩
  · exact ⟨_, .remu (h.imp key (.imp key key))⟩
  · obtain rfl : w = ecallWord := key h
    exact ⟨_, .system ⟨rfl, rfl⟩⟩
  · obtain rfl : w = ebreakWord := key h
    exact ⟨_, .system ⟨rfl, rfl⟩⟩
  · exact ⟨_, .system (h.imp key key)⟩

/-- Settles O3: a legal word's first row is its arm's, and an Illegal word has no row, for a row would select an arm. -/
theorem decodeFollowsOpcodeTable : Obligations.DecodeFollowsOpcodeTable := by
  intro d w
  cases hd : decodeWord d w with
  | some i => exact (decodeWord_some hd).find_row.symm
  | none =>
    have hnone : ((opcodeMap d).find? fun row => row.admits w) = none := List.find?_eq_none.mpr fun row hrow h => by
      obtain ⟨i, hi⟩ := decoded_of_admits hrow h
      rw [decodeWord_of_decoded hi] at hd
      cases hd
    rw [hnone]; rfl

/-! ## DIVREM_OPCODE -/

/-- No arm under DIVREM_OPCODE = OP has the opcode OP-32. -/
theorem decodeWord_op_of_opOp32 {w : InstrWord} (h : opcodeOf w = opOp32) : decodeWord .op w = none := by
  simp [decodeWord, h]

/-- Under DIVREM_OPCODE = OP-32 the OP arms have funct3 000 or 011 only. -/
theorem decodeWord_op32_of_opOp {w : InstrWord} (h : opcodeOf w = opOp) (h0 : funct3Of w ≠ 0b000#3)
    (h3 : funct3Of w ≠ 0b011#3) : decodeWord .op32 w = none := by
  simp [decodeWord, h, h0, h3]

/-- Settles O6: the DIVU and REMU arms under either value, and the words that no arm takes. -/
theorem divremOpcodeSelectsFamily : Obligations.DivremOpcodeSelectsFamily := by
  refine fun w => ⟨decodeWord_op_of_opOp32, fun ⟨hf, h7⟩ => ⟨fun h => ?_, fun h => ⟨?_, ?_⟩⟩,
    fun ⟨hf, h7⟩ => ⟨fun h => ?_, fun h => ⟨?_, ?_⟩⟩⟩
  · exact decodeWord_of_decoded (.divu ⟨h, hf, h7⟩)
  · exact decodeWord_op32_of_opOp h (by simp [hf]) (by simp [hf])
  · exact decodeWord_of_decoded (.divu ⟨h, hf, h7⟩)
  · exact decodeWord_of_decoded (.remu ⟨h, hf, h7⟩)
  · exact decodeWord_op32_of_opOp h (by simp [hf]) (by simp [hf])
  · exact decodeWord_of_decoded (.remu ⟨h, hf, h7⟩)

/-! ## Example words and names -/

/-- Settles O4, word by word. -/
theorem specWordsDecode : Obligations.SpecWordsDecode := by unfold Obligations.SpecWordsDecode; decide

/-- The name of a SYSTEM no-op, whichever of the three instructions it is. -/
theorem traceName_decodeSystem (w : InstrWord) : Machine.traceName (decodeSystem w) =
    if fieldI w = 0#12 then "ECALL" else if fieldI w = 1#12 then "EBREAK" else "SYSTEM-NOP" := by
  by_cases he : w = ecallWord
  · subst he; decide
  by_cases hb : w = ebreakWord
  · subst hb; decide
  rw [decodeSystem, if_neg he, if_neg hb]
  rfl

/-- Settles O7: a legal SYSTEM word is one of the no-ops. -/
theorem systemWordTraceName : Obligations.SystemWordTraceName := by
  intro d w i hop hd
  rw [decodeWord_opSystem d hop] at hd
  split at hd
  · cases hd; exact traceName_decodeSystem w
  · cases hd

end Sys2Proof

/-!
PROOF. Registers an instruction writes and reads (spec/10_state.md R19; spec/30_encoding.md R71, R72): O27 from its
effects, O28 from what its meaning reads; the link and jump and the load under two destinations or two words, for O29
and O33; a JALR through a JAL's link register (O35).
-/
namespace Sys2Proof.Machine

variable {cfg : Config} {i : Instr} {s t : State}

/-! ## Registers written -/

/-- Only the destination of a write reads otherwise. -/
theorem State.readReg_writeReg_ne {rd r : Reg} {v : Word} (h : (s.writeReg rd v).readReg r ≠ s.readReg r) :
    r = rd ∧ r ≠ 0 := by
  rw [State.readReg_writeReg] at h
  by_contra hn
  exact h (if_neg hn)

/-- An instruction changes no register but its destination, and x0 never. -/
theorem ExecEffect.destination_of_readReg_ne (h : ExecEffect cfg i s t) {r : Reg} (hr : t.readReg r ≠ s.readReg r) :
    destination i = some r ∧ r ≠ 0 := by
  cases h with
  | wrote rd v hd =>
    obtain ⟨rfl, h0⟩ := State.readReg_writeReg_ne hr
    exact ⟨hd, h0⟩
  | jal rd offset hi =>
    obtain ⟨rfl, h0⟩ := State.readReg_writeReg_ne hr
    exact ⟨hi ▸ rfl, h0⟩
  | jalr rd rs1 imm f3 hi =>
    obtain ⟨rfl, h0⟩ := State.readReg_writeReg_ne hr
    exact ⟨hi ▸ rfl, h0⟩
  | taken | advanced | stored | badTarget | badAccess => exact absurd rfl hr

/-- Settles O27. -/
theorem onlyDestinationChanges : Obligations.OnlyDestinationChanges :=
  fun _ _ _ h _ hr => (exec_effect h).destination_of_readReg_ne hr

/-! ## Registers read -/

/-- What two outcomes of an instruction must share: all but the registers, and of these the destination. -/
structure AgreeBut (dest : Option Reg) (t t' : State) : Prop where
  pc_eq : t.pc = t'.pc
  mem_eq : t.mem = t'.mem
  run_eq : t.run = t'.run
  record_eq : t.haltRecord = t'.haltRecord
  dest_eq : t.run = .running → ∀ r, dest = some r → t.readReg r = t'.readReg r

/-- Two states that agree in all but their registers. -/
structure SameButRegs (s s' : State) : Prop where
  pc_eq : s.pc = s'.pc
  mem_eq : s.mem = s'.mem
  run_eq : s.run = s'.run
  record_eq : s.haltRecord = s'.haltRecord

section
variable {s' : State}

/-- The same value written to the same register. -/
theorem SameButRegs.writeReg (h : SameButRegs s s') (rd : Reg) (v : Word) :
    AgreeBut (some rd) (s.writeReg rd v) (s'.writeReg rd v) := by
  refine ⟨by simp [h.pc_eq], by simp [h.mem_eq], by simp [h.run_eq], by simp [h.record_eq], fun _ r hr => ?_⟩
  cases hr
  by_cases h0 : rd = 0 <;> simp [State.readReg_writeReg, h0]

theorem SameButRegs.agreeBut_none (h : SameButRegs s s') : AgreeBut none s s' :=
  ⟨h.pc_eq, h.mem_eq, h.run_eq, h.record_eq, fun _ _ hr => nomatch hr⟩

theorem AgreeBut.setPc {dest : Option Reg} (h : AgreeBut dest s s') (pc : Word) :
    AgreeBut dest (s.setPc pc) (s'.setPc pc) :=
  ⟨rfl, h.mem_eq, h.run_eq, h.record_eq, h.dest_eq⟩

theorem AgreeBut.advancePc {dest : Option Reg} (h : AgreeBut dest s s') : AgreeBut dest s.advancePc s'.advancePc :=
  ⟨congrArg (· + 4#64) h.pc_eq, h.mem_eq, h.run_eq, h.record_eq, h.dest_eq⟩

/-- A condition's record is the same, and no register is written. -/
theorem SameButRegs.raise (h : SameButRegs s s') (dest : Option Reg) (r : HaltRecord) :
    AgreeBut dest (s.advancePc.raise r) (s'.advancePc.raise r) :=
  ⟨congrArg (· + 4#64) h.pc_eq, h.mem_eq, rfl, rfl, fun hr => nomatch hr⟩

/-- Two results whose next states agree. -/
def ResultsAgree (dest : Option Reg) (o o' : Result) : Prop :=
  ∃ t t', o = .next t ∧ o' = .next t' ∧ AgreeBut dest t t'

theorem resultsAgree_writeResult (h : SameButRegs s s') (rd : Reg) {v v' : Word} (hv : v = v') :
    ResultsAgree (some rd) (writeResult rd v s) (writeResult rd v' s') :=
  ⟨_, _, rfl, hv ▸ rfl, (h.writeReg rd v).advancePc⟩

theorem resultsAgree_jumpAndLink (h : SameButRegs s s') (word : InstrWord) (rd : Reg) {target target' : Word}
    (ht : target = target') :
    ResultsAgree (some rd) (jumpAndLink word rd target s) (jumpAndLink word rd target' s') := by
  subst ht
  by_cases ha : TargetAligned target
  · refine ⟨_, _, if_pos ha, if_pos ha, ?_⟩
    rw [h.pc_eq]
    exact (h.writeReg rd _).setPc target
  · refine ⟨_, _, if_neg ha, if_neg ha, ?_⟩
    rw [h.pc_eq]
    exact h.raise _ _

theorem resultsAgree_beq (h : SameButRegs s s') (rs1 rs2 : Reg) (offset : BitVec 13)
    (h1 : s.readReg rs1 = s'.readReg rs1) (h2 : s.readReg rs2 = s'.readReg rs2) :
    ResultsAgree none (exec (.beq rs1 rs2 offset) s) (exec (.beq rs1 rs2 offset) s') := by
  by_cases he : s.readReg rs1 = s.readReg rs2
  · have he' : s'.readReg rs1 = s'.readReg rs2 := h1 ▸ h2 ▸ he
    by_cases ha : TargetAligned (beqTarget s.pc offset)
    · have ha' : TargetAligned (beqTarget s'.pc offset) := h.pc_eq ▸ ha
      exact ⟨_, _, exec_beq_taken he ha, exec_beq_taken he' ha', h.pc_eq ▸ h.agreeBut_none.setPc _⟩
    · have ha' : ¬ TargetAligned (beqTarget s'.pc offset) := h.pc_eq ▸ ha
      exact ⟨_, _, exec_beq_misaligned he ha, exec_beq_misaligned he' ha', h.pc_eq ▸ h.raise none _⟩
  · have he' : s'.readReg rs1 ≠ s'.readReg rs2 := h1 ▸ h2 ▸ he
    exact ⟨_, _, exec_beq_untaken he, exec_beq_untaken he', h.agreeBut_none.advancePc⟩

theorem resultsAgree_ldWith (h : SameButRegs s s') (rd : Reg) {rs1 : Reg} (imm : BitVec 12)
    (h1 : s.readReg rs1 = s'.readReg rs1) :
    ResultsAgree (some rd) (ldWith cfg rd rs1 imm s) (ldWith cfg rd rs1 imm s') := by
  have haddr : loadAddress s' rs1 imm = loadAddress s rs1 imm := by rw [loadAddress, loadAddress, h1]
  rw [ldWith, ldWith, haddr, ← h.mem_eq, ← h.pc_eq]
  cases dataRead cfg s.mem (loadAddress s rs1 imm) with
  | ok v => exact ⟨_, _, rfl, rfl, (h.writeReg rd v).advancePc⟩
  | error c => exact ⟨_, _, rfl, rfl, h.raise _ _⟩

theorem resultsAgree_sdWith (h : SameButRegs s s') {rs1 rs2 : Reg} (imm : BitVec 12)
    (h1 : s.readReg rs1 = s'.readReg rs1) (h2 : s.readReg rs2 = s'.readReg rs2) :
    ResultsAgree none (sdWith cfg rs1 rs2 imm s) (sdWith cfg rs1 rs2 imm s') := by
  have haddr : storeAddress s' rs1 imm = storeAddress s rs1 imm := by rw [storeAddress, storeAddress, h1]
  rw [sdWith, sdWith, haddr, ← h2, ← h.mem_eq, ← h.pc_eq]
  cases dataWrite cfg s.mem (storeAddress s rs1 imm) (s.readReg rs2) with
  | ok m => exact ⟨_, _, rfl, rfl, rfl, rfl, h.run_eq, h.record_eq, fun _ _ hr => nomatch hr⟩
  | error c => exact ⟨_, _, rfl, rfl, h.raise _ _⟩

/-- From states that agree but for registers it does not read, an instruction's outcomes agree. -/
theorem exec_resultsAgree (h : SameButRegs s s') (hsrc : ∀ r ∈ sources i, s.readReg r = s'.readReg r) :
    ResultsAgree (destination i) (exec i s) (exec i s') := by
  cases i with
  | lui rd imm => exact resultsAgree_writeResult h rd rfl
  | jal rd offset => exact resultsAgree_jumpAndLink h _ rd (congrArg (jalTarget · offset) h.pc_eq)
  | jalr rd rs1 imm f3 =>
    have h1 : s.readReg rs1 = s'.readReg rs1 := hsrc rs1 (by simp [sources])
    exact resultsAgree_jumpAndLink h _ rd (by rw [jalrTarget, jalrTarget, h1])
  | ld rd rs1 imm => exact resultsAgree_ldWith h rd imm (hsrc rs1 (by simp [sources]))
  | sd rs1 rs2 imm =>
    exact resultsAgree_sdWith h imm (hsrc rs1 (by simp [sources])) (hsrc rs2 (by simp [sources]))
  | beq rs1 rs2 offset =>
    exact resultsAgree_beq h rs1 rs2 offset (hsrc rs1 (by simp [sources])) (hsrc rs2 (by simp [sources]))
  | addi rd rs1 imm =>
    have h1 : s.readReg rs1 = s'.readReg rs1 := hsrc rs1 (by simp [sources])
    exact resultsAgree_writeResult h rd (by rw [h1])
  | add rd rs1 rs2 | sub rd rs1 rs2 | mul rd rs1 rs2 | sltu rd rs1 rs2 | divu rd rs1 rs2 | remu rd rs1 rs2 =>
    have h1 : s.readReg rs1 = s'.readReg rs1 := hsrc rs1 (by simp [sources])
    have h2 : s.readReg rs2 = s'.readReg rs2 := hsrc rs2 (by simp [sources])
    exact resultsAgree_writeResult h rd (by rw [h1, h2])
  | ecall | ebreak | systemNop => exact ⟨_, _, rfl, rfl, h.agreeBut_none.advancePc⟩

end

/-- Settles O28. -/
theorem onlySourcesAreRead : Obligations.OnlySourcesAreRead := by
  intro i s s' t t' hr hr' hrec hpc hmem hsrc ht ht'
  obtain ⟨u, u', hu, hu', h⟩ := exec_resultsAgree ⟨hpc, hmem, hr.trans hr'.symm, hrec⟩ hsrc
  cases ht.symm.trans hu
  cases ht'.symm.trans hu'
  exact ⟨h.pc_eq, h.mem_eq, h.run_eq, h.record_eq, h.dest_eq⟩

/-! ## Two destinations, two words -/

/-- Two outcomes that share the pc, the run state, the memory and the record but its word. -/
abbrev SameTransfer (t t' : State) : Prop :=
  t.pc = t'.pc ∧ t.run = t'.run ∧ t.mem = t'.mem ∧ t.SameRecordButWord t'

/-- The transfer does not depend on the destination, and on the word only in a halt record. -/
theorem jumpAndLink_sameTransfer (word word' : InstrWord) (rd rd' : Reg) (target : Word) (s : State) :
    ∃ t t', jumpAndLink word rd target s = .next t ∧ jumpAndLink word' rd' target s = .next t' ∧
      SameTransfer t t' := by
  by_cases ha : TargetAligned target
  · exact ⟨_, _, if_pos ha, if_pos ha, by simp [SameTransfer, State.SameRecordButWord]⟩
  · exact ⟨_, _, if_neg ha, if_neg ha, by simp [SameTransfer, State.SameRecordButWord]⟩

/-- Nor does a load's access. -/
theorem ldWith_sameTransfer (rd rd' rs1 : Reg) (imm : BitVec 12) (s : State) :
    ∃ t t', ldWith cfg rd rs1 imm s = .next t ∧ ldWith cfg rd' rs1 imm s = .next t' ∧ SameTransfer t t' := by
  rw [ldWith, ldWith]
  cases dataRead cfg s.mem (loadAddress s rs1 imm) with
  | ok v => exact ⟨_, _, rfl, rfl, by simp [SameTransfer, State.SameRecordButWord]⟩
  | error c => exact ⟨_, _, rfl, rfl, by simp [SameTransfer, State.SameRecordButWord]⟩

/-- Settles O29: a changed register would be a destination other than x0; JAL and JALR share the link and jump. -/
theorem destinationX0ExecutesFully : Obligations.DestinationX0ExecutesFully := by
  refine ⟨fun i s t hd h r => ?_, fun rd rs1 offset imm f3 s => ⟨?_, ?_, ?_⟩⟩
  · by_contra hne
    obtain ⟨hr, h0⟩ := (exec_effect h).destination_of_readReg_ne hne
    exact h0 (Option.some.inj (hr.symm.trans hd))
  · exact jumpAndLink_sameTransfer _ _ 0 rd _ s
  · exact jumpAndLink_sameTransfer _ _ 0 rd _ s
  · exact ldWith_sameTransfer 0 rd rs1 imm s

/-- Settles O33: with an aligned target the word is not used, and with a misaligned one only the record holds it. -/
theorem jalrIgnoresFunct3 : Obligations.JalrIgnoresFunct3 := by
  refine ⟨fun d w h => decodeWord_of_decoded (.jalr h), fun rd rs1 imm f g s => ?_⟩
  by_cases ha : TargetAligned (jalrTarget s rs1 imm)
  · exact ⟨_, _, if_pos ha, if_pos ha, rfl, rfl, rfl, rfl, rfl, fun _ => rfl⟩
  · exact ⟨_, _, if_neg ha, if_neg ha, rfl, rfl, rfl, rfl, rfl, fun h => absurd h ha⟩

/-! ## Linkage -/

/-- JALR through a register that holds an aligned address, with offset 0, goes to that address. -/
theorem jalrTarget_of_aligned {rs1 : Reg} {target : Word} (h : s.readReg rs1 = target) (ha : target.toNat % 4 = 0) :
    jalrTarget s rs1 0 = target := by
  apply BitVec.eq_of_toNat_eq
  rw [jalrTarget_toNat, h, show (0 : BitVec 12).signExtend 64 = 0#64 from rfl, BitVec.add_zero]
  omega

/-- Settles O35: the link register holds the aligned address after the JAL. -/
theorem jalThenJalrResumesAfterJal : Obligations.JalThenJalrResumesAfterJal := by
  intro rd link offset f3 s hlink hpc ha
  obtain ⟨t, ht, hregs, -, hmem, hrun, hrec⟩ := (jalLinksAndJumps.2 link offset s).1 ha
  have hread : t.readReg link = s.pc + 4 := (hregs link).trans (if_pos ⟨rfl, hlink⟩)
  have htarget := jalrTarget_of_aligned hread (add_four_aligned hpc)
  have haligned : TargetAligned (jalrTarget t link 0) := htarget ▸ (targetAligned_iff _).mpr (add_four_aligned hpc)
  obtain ⟨u, hu, -, hupc, humem, hurun, hurec⟩ :=
    jumpAndLink_aligned (rd := rd) (encode (.jalr rd link 0 f3)) haligned
  exact ⟨t, u, ht, hu, hupc.trans htarget, humem.trans hmem, hurun.trans hrun, hurec.trans hrec⟩

end Sys2Proof.Machine

/-!
PROOF. Division (spec/44_integer.md R104, R105), for O51 to O53, and the two-word expansion of `li` (spec/30_encoding.md
R75), for O58.
-/
namespace Sys2Proof.Machine

/-! ## Quotient and remainder -/

section
variable (cfg : Config) (a : Word) {b : Word}

theorem divUnsigned_zero : divUnsigned cfg a 0#64 = cfg.divuZero a := if_pos rfl

theorem remUnsigned_zero : remUnsigned cfg a 0#64 = cfg.remuZero a := if_pos rfl

/-- The quotient of two words is a word. -/
theorem divUnsigned_toNat (hb : b ≠ 0#64) : (divUnsigned cfg a b).toNat = a.toNat / b.toNat := by
  rw [divUnsigned, if_neg hb, BitVec.toNat_ofNat]
  exact Nat.mod_eq_of_lt (Nat.lt_of_le_of_lt (Nat.div_le_self ..) a.isLt)

/-- The remainder of two words is a word. -/
theorem remUnsigned_toNat (hb : b ≠ 0#64) : (remUnsigned cfg a b).toNat = a.toNat % b.toNat := by
  rw [remUnsigned, if_neg hb, BitVec.toNat_ofNat]
  exact Nat.mod_eq_of_lt (Nat.lt_of_le_of_lt (Nat.mod_le ..) a.isLt)

/-- Quotient and remainder by a divisor other than 0 give the dividend back. -/
theorem divUnsigned_mul_add_remUnsigned (hb : b ≠ 0#64) : divUnsigned cfg a b * b + remUnsigned cfg a b = a := by
  apply BitVec.eq_of_toNat_eq
  rw [BitVec.toNat_add, BitVec.toNat_mul, Nat.mod_add_mod, divUnsigned_toNat cfg a hb, remUnsigned_toNat cfg a hb,
    Nat.div_add_mod']
  exact Nat.mod_eq_of_lt a.isLt

end

/-! ## DIVU and REMU -/

/-- DIVU retires with the quotient, and with DIVU_ZERO of the dividend for a zero divisor. -/
theorem divuWith_retires (cfg : Config) (rd rs1 rs2 : Reg) (s : State) :
    ∃ t v, divuWith cfg rd rs1 rs2 s = .next t ∧ s.Retired t rd v ∧
      (s.readReg rs2 = 0 → v = cfg.divuZero (s.readReg rs1)) ∧
      (s.readReg rs2 ≠ 0 → v.toNat = (s.readReg rs1).toNat / (s.readReg rs2).toNat) :=
  ⟨_, _, rfl, s.retired_writeReg rd _, fun hz => hz ▸ divUnsigned_zero cfg _, divUnsigned_toNat cfg _⟩

/-- REMU retires with the remainder, and with REMU_ZERO of the dividend for a zero divisor. -/
theorem remuWith_retires (cfg : Config) (rd rs1 rs2 : Reg) (s : State) :
    ∃ t v, remuWith cfg rd rs1 rs2 s = .next t ∧ s.Retired t rd v ∧
      (s.readReg rs2 = 0 → v = cfg.remuZero (s.readReg rs1)) ∧
      (s.readReg rs2 ≠ 0 → v.toNat = (s.readReg rs1).toNat % (s.readReg rs2).toNat) :=
  ⟨_, _, rfl, s.retired_writeReg rd _, fun hz => hz ▸ remUnsigned_zero cfg _, remUnsigned_toNat cfg _⟩

/-- Settles O51. -/
theorem divuResult : Obligations.DivuResult := fun rd rs1 rs2 s =>
  ⟨divuWith_retires reference rd rs1 rs2 s, fun cfg => divuWith_retires cfg rd rs1 rs2 s⟩

/-- Settles O52. -/
theorem remuResult : Obligations.RemuResult := fun rd rs1 rs2 s =>
  ⟨remuWith_retires reference rd rs1 rs2 s, fun cfg => remuWith_retires cfg rd rs1 rs2 s⟩

/-- Settles O53: by zero, the default remainder is the whole dividend. -/
theorem zeroDivisorDefaults : Obligations.ZeroDivisorDefaults := by
  refine ⟨fun a => ⟨divUnsigned_zero reference a, remUnsigned_zero reference a⟩, fun a b => ?_⟩
  by_cases hb : b = 0#64
  · have hrem : remUnsigned reference a 0#64 = a := remUnsigned_zero reference a
    rw [hb, hrem, BitVec.mul_zero, BitVec.zero_add]
  · exact divUnsigned_mul_add_remUnsigned reference a hb

/-! ## The two words of `li` -/

/-- The U-type immediate is its field, signed, times 4096. -/
theorem immU_toInt (imm : BitVec 20) : (immU imm).toInt = 4096 * imm.toInt := by
  rw [immU, BitVec.toInt_signExtend_of_le (by decide), BitVec.toInt_append_zero]; rfl

/-- The low part differs from the immediate by a multiple of 4096. -/
theorem liLow_toInt (imm : Int) : (liLow imm).toInt = imm.bmod 4096 := BitVec.toInt_ofInt imm

/-- Below the range that R75's note names, the high part fits 20 signed bits and completes the low one. -/
theorem liHigh_toInt {imm : Int} (hlo : -2147483648 ≤ imm) (hhi : imm < 0x7FFFF800) :
    4096 * (liHigh imm).toInt = imm - (liLow imm).toInt := by
  have hdvd : (4096 : Int) ∣ imm - (liLow imm).toInt := liLow_toInt imm ▸ Int.dvd_self_sub_bmod
  have hmin : -2048 ≤ (liLow imm).toInt := BitVec.le_toInt _
  have hmax : (liLow imm).toInt < 2048 := BitVec.toInt_lt
  rw [liHigh, BitVec.toInt_ofInt_eq_self (by decide) (by omega) (by omega)]
  exact Int.mul_ediv_cancel' hdvd

/-- The value ADDI adds up after LUI. -/
theorem immU_liHigh_add_immI_liLow {imm : Int} (hlo : -2147483648 ≤ imm) (hhi : imm < 0x7FFFF800) :
    immU (liHigh imm) + immI (liLow imm) = BitVec.ofInt 64 imm := by
  rw [add_immI_eq_ofInt, immU_toInt, liHigh_toInt hlo hhi, Int.sub_add_cancel]

/-- Settles O58: LUI leaves the high part in rd, and ADDI reads it there and adds the low part. -/
theorem liExpansionLoadsImmediate : Obligations.LiExpansionLoadsImmediate := by
  intro rd imm s hrd hlo hhi hshort
  refine ⟨liHigh imm, liLow imm, _, _, ?_, exec_lui .., exec_addi .., ?_⟩
  · rw [Pseudo.expand, if_neg hshort, if_pos ⟨hlo, by omega⟩]
  · simp only [State.readReg_advancePc, State.readReg_writeReg, hrd, ne_eq, not_false_eq_true, and_self, if_true]
    exact immU_liHigh_add_immI_liLow hlo hhi

end Sys2Proof.Machine

/-!
PROOF. Reset and loading (spec/10_state.md R33; spec/70_reset_and_hazards.md R129, R131): O56 and O57.
-/
namespace Sys2Proof.Machine

/-- Settles O56: reset() over the state's own memory. -/
theorem resetLeavesTheTable : Obligations.ResetLeavesTheTable := by
  intro cfg s
  have hread (r : Reg) : (s.resetMachine cfg).readReg r = resetReg cfg r := State.readReg_resetOf cfg s.mem r
  refine ⟨by simp [State.resetMachine, resetRegs, resetReg], by rw [hread]; rfl, fun r h0 h2 => ?_,
    State.resetOf_pc cfg s.mem, State.resetOf_run cfg s.mem, State.resetOf_haltRecord cfg s.mem,
    State.resetOf_mem cfg s.mem⟩
  rw [hread, resetReg, if_neg h0, if_neg h2]

theorem boot_of_fits {cfg : Config} {image : List Byte} (h : image.length ≤ cfg.memSize) :
    boot cfg image = some (State.resetOf cfg (Memory.writeBytes [] cfg.memBase image)) := by
  simp [boot, Memory.loadImage, h]

/-- Settles O57: the loader's two answers, and the bytes its writes leave over the zero memory. -/
theorem bootLoadsImage : Obligations.BootLoadsImage := by
  intro cfg image
  refine ⟨fun hlong => ?refused, fun hfit => ⟨_, boot_of_fits hfit, fun k hk => ?inside, fun a ha => ?outside⟩⟩
  case refused =>
    cases hb : boot cfg image with
    | none => rfl
    | some s => exact absurd (boot_eq_some hb).1 (Nat.not_le.mpr hlong)
  case inside =>
    rw [State.resetOf_mem, Memory.readByte_writeBytes, dif_pos ⟨Nat.le_add_right .., by omega⟩]
    simp
  case outside =>
    rw [State.resetOf_mem, Memory.readByte_writeBytes, dif_neg ha]
    rfl

end Sys2Proof.Machine
